-- ==== Sys2Proof/Word.lean ====
section
/-!
DEFINITION. The word: the one datum of the machine (R6, R7, R12, R44).

A word is a signed integer. The instruction set is defined on its decimal digits and on its value, never on its bits
(R6), and sums and products are formed in the integers and then checked against the word range (R7, R9, R112). So a word
is an `Int` of the range below, whose width is a parameter (Sys2Proof/Config.lean). That every cell and register lies in
the range is the invariant `Sys2Proof.Machine.State.wf` (R29 a), which every step keeps. Where a definition takes or
answers an integer that need not be a word, its docstring says so.
-/

namespace Sys2Proof

/-- `-2^(bits-1)`, the least signed word of `bits` bits (R5). -/
def leastWord (bits : Nat) : Int := -((2 ^ (bits - 1) : Nat) : Int)

/-- `2^(bits-1) - 1`, the greatest signed word of `bits` bits (R5). -/
def greatestWord (bits : Nat) : Int := ((2 ^ (bits - 1) : Nat) : Int) - 1

end Sys2Proof
end

