-- ==== Sys2Proof/Config.lean ====
section
/-!
DEFINITION. The parameter of an implementation: the width of a word (R5; 92_eei_decisions.md D1, marked OPEN there).

The spec takes `WORD_BITS` as an argument of the model with the constraint `WORD_BITS >= 64`. The constraint is built in:
a configuration says by how many bits its word is wider than 64. No free value stands here: the spec leaves no value of a
completed step open (R101).
-/

namespace Sys2Proof

/-- The parameters of one engine that no step writes (R5). DESIGN CHOICE [2]: the engine's configuration stands in State
as plain data, so that every statement about a state holds for every width the spec allows. -/
structure Config where
  /-- `WORD_BITS - 64`. -/
  extraBits : Nat
  deriving DecidableEq, Repr

/-- `WORD_BITS`, at least 64 (R5). -/
def Config.wordBits (c : Config) : Nat := 64 + c.extraBits

/-- `WORD_MIN = -2^(WORD_BITS-1)` (R5). -/
def Config.wordMin (c : Config) : Int := leastWord c.wordBits

/-- `WORD_MAX = 2^(WORD_BITS-1) - 1`, also the greatest address (R5). -/
def Config.wordMax (c : Config) : Int := greatestWord c.wordBits

/-- Is the integer a word, that is in `[WORD_MIN, WORD_MAX]`? (R5, R9) -/
def Config.isWord (c : Config) (v : Int) : Bool := decide (c.wordMin ≤ v) && decide (v ≤ c.wordMax)

/-- The width the spec takes for its vectors, 64 (R5, D1). -/
def Config.bits64 : Config := ⟨0⟩

end Sys2Proof
end

