-- ==== Sys2Proof/Syntax.lean ====
section
/-!
DEFINITION. The syntax of the ten instructions (R60 to R65): one constructor per row of spec/opcode_table.json.

An instruction is its instruction word and its raw words (R60), as data: the opcode is the constructor, each argument is
a mode and a raw word, and `high` is the number written by the decimal digits above the last mode digit, which the decoder
does not examine (R69).
-/

namespace Sys2Proof

/-- The three addressing modes (R63). -/
inductive Mode where
  | positional
  | immediate
  | relative
  deriving DecidableEq, Repr

/-- The kind of an argument, fixed per opcode: a value is read, or an address is written to (R62). -/
inductive ArgKind where
  | consumed
  | produced
  deriving DecidableEq, Repr

/-- One argument as it stands in memory: the mode from the instruction word and the raw word that follows it (R10). -/
structure Arg where
  mode : Mode
  raw  : Int
  deriving DecidableEq, Repr

/-- The instructions (R65). `a`, `b` are the Consumed arguments and `dest` the Produced one, in the order of the words in
memory (R62). A Produced argument may carry the mode Immediate here: such a word passes the decode phase and faults in the
resolve phase (R68). `high` is the number in the unexamined digits of the instruction word (R69). -/
inductive Instr where
  /-- ADD, opcode 1 (R110). -/
  | add (a b dest : Arg) (high : Nat)
  /-- MUL, opcode 2 (R111). -/
  | mul (a b dest : Arg) (high : Nat)
  /-- IN, opcode 3 (R120). -/
  | input (dest : Arg) (high : Nat)
  /-- OUT, opcode 4 (R121). -/
  | output (a : Arg) (high : Nat)
  /-- JT, opcode 5 (R130). -/
  | jumpIfTrue (a b : Arg) (high : Nat)
  /-- JF, opcode 6 (R131). -/
  | jumpIfFalse (a b : Arg) (high : Nat)
  /-- LT, opcode 7 (R140). -/
  | lessThan (a b dest : Arg) (high : Nat)
  /-- EQ, opcode 8 (R141). -/
  | equals (a b dest : Arg) (high : Nat)
  /-- ARB, opcode 9 (R150). -/
  | adjustRelativeBase (a : Arg) (high : Nat)
  /-- HLT, opcode 99 (R160). -/
  | halt (high : Nat)
  deriving DecidableEq, Repr

end Sys2Proof
end

