-- ==== Sys2Proof/Decode.lean ====
section
/-!
DEFINITION. The Decoder and the encoder, in decimal digits (R60 to R73).

`decodeWith` is the decode phase of R90 on one instruction word, with the raw words supplied by a function; `decode` reads
a list of words and answers the instruction with the rest of the list; `encode` writes the words of an instruction.
-/

namespace Sys2Proof

/-- Why a word is no instruction word (R171, causes 1 and 2). -/
inductive DecodeFault where
  /-- A negative word, or one whose two low digits are none of the ten opcodes (R64, R66). -/
  | illegalOpcode (w : Int)
  /-- Mode digit `n` is 3 to 9 (R67). -/
  | illegalMode (w : Int) (n : Nat)
  deriving DecidableEq, Repr

/-- Why a list of words is rejected: its first word decodes to nothing, or the list ends before the instruction does. A
memory never ends, so `truncated` is of `decode` alone and no step meets it. -/
inductive Reject where
  | fault (f : DecodeFault)
  | truncated
  deriving DecidableEq, Repr

/-- Decimal digit `k` of a non-negative word, digit 0 the units digit (R6). -/
def digit (w k : Nat) : Nat := w / 10 ^ k % 10

/-- `opcode(word) = word mod 100` (R61). -/
def opcodeField (w : Nat) : Nat := w % 100

/-- The mode digit of argument `n`: `(w / 100) / 10^n mod 10`, that is decimal digit `n + 2` (R61). -/
def modeDigit (w n : Nat) : Nat := digit w (n + 2)

/-- `{0: Positional, 1: Immediate, 2: Relative}`; any other digit is none (R63). -/
def modeOfDigit : Nat → Option Mode
  | 0 => some .positional
  | 1 => some .immediate
  | 2 => some .relative
  | _ => none

/-- The mode of argument `n` of the instruction word `w`, or the fault of R67. -/
def modeOf (w n : Nat) : Except DecodeFault Mode :=
  match modeOfDigit (modeDigit w n) with
  | some m => .ok m
  | none => .error (.illegalMode w n)

/-- Format F0 (R62): the digits from 2 up are not examined (R69). -/
def decodeF0 (mk : Nat → Instr) (w : Nat) : Except DecodeFault Instr := .ok (mk (w / 10 ^ 2))

/-- Formats F1C and F1P (R62): one mode digit. -/
def decodeF1 (mk : Arg → Nat → Instr) (w : Nat) (raw : Nat → Int) : Except DecodeFault Instr := do
  let m0 ← modeOf w 0
  return mk ⟨m0, raw 0⟩ (w / 10 ^ 3)

/-- Format F2CC (R62): two mode digits, the lower examined first (R67). -/
def decodeF2 (mk : Arg → Arg → Nat → Instr) (w : Nat) (raw : Nat → Int) : Except DecodeFault Instr := do
  let m0 ← modeOf w 0
  let m1 ← modeOf w 1
  return mk ⟨m0, raw 0⟩ ⟨m1, raw 1⟩ (w / 10 ^ 4)

/-- Format F3CCP (R62): three mode digits, the lowest examined first (R67). -/
def decodeF3 (mk : Arg → Arg → Arg → Nat → Instr) (w : Nat) (raw : Nat → Int) : Except DecodeFault Instr := do
  let m0 ← modeOf w 0
  let m1 ← modeOf w 1
  let m2 ← modeOf w 2
  return mk ⟨m0, raw 0⟩ ⟨m1, raw 1⟩ ⟨m2, raw 2⟩ (w / 10 ^ 5)

/-- The decode phase on the instruction word `w`, raw word `n` being `raw n` (R90, R92): the sign (R64), the opcode (R65,
R66), then the mode digits of the arguments there are, in ascending order (R67). -/
def decodeWith (w : Int) (raw : Nat → Int) : Except DecodeFault Instr :=
  if w < 0 then .error (.illegalOpcode w)
  else
    match opcodeField w.toNat with
    | 1 => decodeF3 .add w.toNat raw
    | 2 => decodeF3 .mul w.toNat raw
    | 3 => decodeF1 .input w.toNat raw
    | 4 => decodeF1 .output w.toNat raw
    | 5 => decodeF2 .jumpIfTrue w.toNat raw
    | 6 => decodeF2 .jumpIfFalse w.toNat raw
    | 7 => decodeF3 .lessThan w.toNat raw
    | 8 => decodeF3 .equals w.toNat raw
    | 9 => decodeF1 .adjustRelativeBase w.toNat raw
    | 99 => decodeF0 .halt w.toNat
    | _ => .error (.illegalOpcode w)

/-- The arguments with their kinds, in the order of the words in memory (R62). -/
def Instr.args : Instr → List (ArgKind × Arg)
  | .add a b dest _ => [(.consumed, a), (.consumed, b), (.produced, dest)]
  | .mul a b dest _ => [(.consumed, a), (.consumed, b), (.produced, dest)]
  | .input dest _ => [(.produced, dest)]
  | .output a _ => [(.consumed, a)]
  | .jumpIfTrue a b _ => [(.consumed, a), (.consumed, b)]
  | .jumpIfFalse a b _ => [(.consumed, a), (.consumed, b)]
  | .lessThan a b dest _ => [(.consumed, a), (.consumed, b), (.produced, dest)]
  | .equals a b dest _ => [(.consumed, a), (.consumed, b), (.produced, dest)]
  | .adjustRelativeBase a _ => [(.consumed, a)]
  | .halt _ => []

/-- The number of arguments, fixed per opcode (R60, R65). -/
def Instr.argc (i : Instr) : Nat := i.args.length

/-- The opcode number (R65). -/
def Instr.opcode : Instr → Nat
  | .add .. => 1
  | .mul .. => 2
  | .input .. => 3
  | .output .. => 4
  | .jumpIfTrue .. => 5
  | .jumpIfFalse .. => 6
  | .lessThan .. => 7
  | .equals .. => 8
  | .adjustRelativeBase .. => 9
  | .halt .. => 99

/-- The number in the unexamined digits (R69). -/
def Instr.high : Instr → Nat
  | .add _ _ _ h => h
  | .mul _ _ _ h => h
  | .input _ h => h
  | .output _ h => h
  | .jumpIfTrue _ _ h => h
  | .jumpIfFalse _ _ h => h
  | .lessThan _ _ _ h => h
  | .equals _ _ _ h => h
  | .adjustRelativeBase _ h => h
  | .halt h => h

/-- One list of words as an instruction and the words after it (R60, R73): the first word says how many raw words follow,
whatever the modes. -/
def decode : List Int → Except Reject (Instr × List Int)
  | [] => .error .truncated
  | w :: rest =>
    match decodeWith w (fun n => rest.getD n 0) with
    | .error f => .error (.fault f)
    | .ok i => if i.argc ≤ rest.length then .ok (i, rest.drop i.argc) else .error .truncated

/-- The digit of a mode (R63). -/
def Mode.digit : Mode → Nat
  | .positional => 0
  | .immediate => 1
  | .relative => 2

/-- The number whose low digits are the mode digits of `ms`, the first lowest, and whose higher digits write `high`. -/
def modesNumber (high : Nat) : List Mode → Nat
  | [] => high
  | m :: ms => m.digit + 10 * modesNumber high ms

/-- The instruction word: `...CBAOO` (R61). -/
def Instr.word (i : Instr) : Int :=
  ((i.opcode + 100 * modesNumber i.high (i.args.map (·.2.mode)) : Nat) : Int)

/-- The words of an instruction, lowest address first (R60, R62): the encoder. -/
def encode (i : Instr) : List Int := i.word :: i.args.map (·.2.raw)

/-- The word of the 64-bit pattern `x`, two's complement (R6). -/
def signed64 (x : Nat) : Int := if x < 2 ^ 63 then (x : Int) else (x : Int) - 2 ^ 64

/-- The four words of a bit string laid out as the host's opcode table numbers bits: word `k` in bits `64k` to `64k + 63`,
the bits from `nbits` up being 0. DESIGN CHOICE [11]: the table is laid out in the 64-bit words of R5's default width. -/
def tableWords (nbits w : Nat) : List Int :=
  [0, 1, 2, 3].map fun k => signed64 (w % 2 ^ nbits / 2 ^ (64 * k) % 2 ^ 64)

/-- The instruction this decoder reads from the bit string `w` of `nbits` bits. -/
def decodeTableWord (nbits w : Nat) : Option Instr :=
  match decode (tableWords nbits w) with
  | .ok (i, _) => some i
  | .error _ => none

end Sys2Proof
end

