-- ==== Sys2Proof/Machine/State.lean ====
section
/-!
DEFINITION. The state of one engine and of the ports it is bound to (10_state.md), as plain data.

The engine's own state is `(mem, pc, rb, status)` (R20). Beside it stand what the spec makes arguments of the step: the
width (`cfg`, R5) and the environment behind the two ports (`input`, `output`, R30 to R32).
-/

namespace Sys2Proof.Machine

/-- The memory (R26): the cells that hold a word other than 0, as pairs of an address and its word, addresses strictly
rising. An unlisted address reads 0 (R43). One cell is one whole word, not a byte (R44) [1]. -/
abbrev Memory := List (Nat × Int)

/-- The causes of a fatal condition with the `info` each records (R171). -/
inductive Cause where
  /-- Code 1: the fetched word `w` is negative or its two low digits are none of the ten opcodes (R64, R66). -/
  | illegalOpcode (w : Int)
  /-- Code 2: mode digit `n` of the fetched word `w` is 3 to 9, `n` the least such (R67). -/
  | illegalMode (w : Int) (n : Nat)
  /-- Code 3: argument `n` of the instruction word `w` is Produced and Immediate (R68). -/
  | immediateWriteTarget (w : Int) (n : Nat)
  /-- Code 4: the negative address that was presented to the memory (R41, R42). -/
  | negativeAddress (addr : Int)
  /-- Code 5: the integer that is not a word (R112; decision D2 of the spec). -/
  | overflow (v : Int)
  /-- Code 6: the input port answered `fail` to the Input instruction at `pc` (R120). -/
  | inputFailure (pc : Int)
  deriving DecidableEq, Repr

/-- The run status (R24). Halted and Faulted are terminal (R99). -/
inductive Status where
  | running
  | halted
  | faulted (c : Cause)
  deriving DecidableEq, Repr

/-- The environment's answer to one `RequestInput` (R31). -/
inductive InputAnswer where
  /-- The environment supplies `v`. A datum that is not a word is the provider's failure (D14) [10]. -/
  | value (v : Int)
  /-- No value is available yet. -/
  | stall
  /-- The source is closed or unparsable. -/
  | fail
  deriving DecidableEq, Repr

/-- The environment's answer to one `DeliverOutput` (R32): there is no failure. -/
inductive OutputAnswer where
  /-- The environment takes the word. -/
  | done
  /-- The destination cannot take a word now. -/
  | stall
  deriving DecidableEq, Repr

/-- The input port and the environment behind it (R30, R31). DESIGN CHOICE [3]: the environment is its script. -/
structure InputPort where
  /-- The environment's answers to the requests to come, the next one first; once it is used up the environment has no
  value yet, and a request stalls. -/
  script   : List InputAnswer
  /-- The words the engine has consumed, oldest first (R28, R31) [12]. -/
  consumed : List Int
  deriving DecidableEq, Repr

/-- The output port and the environment behind it (R30, R32). DESIGN CHOICE [4]: the environment is its script. -/
structure OutputPort where
  /-- The environment's answers to the deliveries to come, the next one first; once it is used up every delivery is
  taken, as by an unbounded queue. -/
  script    : List OutputAnswer
  /-- The words the environment has taken, oldest first (R28, R32) [12]. -/
  delivered : List Int
  deriving DecidableEq, Repr

/-- One engine with its configuration and its ports (R20, R30). -/
structure State where
  /-- The width of a word (R5); no step writes it. -/
  cfg    : Config
  /-- The memory (R26). -/
  mem    : Memory
  /-- The program counter (R21). -/
  pc     : Int
  /-- The relative base (R23). -/
  rb     : Int
  /-- The run status (R24). -/
  status : Status
  /-- The input port (R31). -/
  input  : InputPort
  /-- The output port (R32). -/
  output : OutputPort
  deriving DecidableEq, Repr

/-- The reasons `Host.Outcome.fault` could carry. There is none [6]: every fatal condition of this machine is one whose
effect the spec describes, `status <- Faulted(cause, info)` (R172), so a faulting step ends in a next state. -/
inductive Fault where
  deriving DecidableEq, Repr

/-- The reasons a step could be refused. -/
inductive Refusal where
  /-- `exec` has no meaning for the instruction of this mnemonic. Raised by `exec` alone, and by no arm of it now; safe. -/
  | notModelled (mnemonic : String)
  deriving DecidableEq, Repr

/-- The engine right after reset with the empty program (R28, R200 to R202): both registers 0, Running, every cell 0, no
value consumed or delivered. The width is the spec's 64 (R5) [2]; the scripts are empty [3], [4]. A reset with a program
is `State.load` [9]. -/
def State.reset : State where
  cfg    := Config.bits64
  mem    := []
  pc     := 0
  rb     := 0
  status := .running
  input  := ⟨[], []⟩
  output := ⟨[], []⟩

end Sys2Proof.Machine
end

