-- ==== Sys2Proof/Machine/Ops.lean ====
section
/-!
DEFINITION. The named operations over memory, registers and ports, and taking a fault (R9, R31, R32, R40 to R43, R172).
-/

namespace Sys2Proof.Machine

/-! ### The Memory Store -/

/-- The word at an address, 0 if the cell was never written (R41, R43). -/
def Memory.read : Memory → Nat → Int
  | [], _ => 0
  | (k, v) :: rest, a => if k = a then v else Memory.read rest a

/-- Puts a cell at its place in a list whose addresses rise and do not include its own. -/
def Memory.insertCell (a : Nat) (v : Int) : Memory → Memory
  | [] => [(a, v)]
  | (k, u) :: rest => if a < k then (a, v) :: (k, u) :: rest else (k, u) :: Memory.insertCell a v rest

/-- Stores a word (R42). A cell holding 0 is a cell never written (R43), so storing 0 removes the entry. -/
def Memory.write (m : Memory) (a : Nat) (v : Int) : Memory :=
  if v = 0 then m.filter (·.1 != a) else Memory.insertCell a v (m.filter (·.1 != a))

/-- Stores words at consecutive addresses, the first at `a` (R74: element `i` of a program at address `i`). -/
def Memory.writeWords (m : Memory) (a : Nat) : List Int → Memory
  | [] => m
  | v :: vs => Memory.writeWords (m.write a v) (a + 1) vs

/-- Do the addresses rise strictly? -/
def Memory.rising : Memory → Bool
  | [] => true
  | [_] => true
  | (a, _) :: (b, v) :: rest => decide (a < b) && Memory.rising ((b, v) :: rest)

/-- The canonical form: addresses strictly rising, no cell listed that holds 0. -/
def Memory.wf (m : Memory) : Bool := m.rising && m.all fun cell => cell.2 != 0

/-- `word(v)`: the integer if it is a word, else the fault `Overflow` (R9). -/
def checkWord (c : Config) (v : Int) : Except Cause Int := if c.isWord v then .ok v else .error (.overflow v)

/-- An address presented to the memory: a negative one faults (R41, R42) [17]. -/
def checkAddress (addr : Int) : Except Cause Nat := if addr < 0 then .error (.negativeAddress addr) else .ok addr.toNat

/-- `MemRead(addr, 1)` (R9, R41). -/
def memRead (m : Memory) (addr : Int) : Except Cause Int := do
  let a ← checkAddress addr
  return m.read a

/-- `MemWrite(addr, 1, v)` (R9, R42). -/
def memWrite (m : Memory) (addr : Int) (v : Int) : Except Cause Memory := do
  let a ← checkAddress addr
  return m.write a v

/-! ### The registers -/

/-- `mem <- m`, by a store. -/
def State.setMem (s : State) (m : Memory) : State := { s with mem := m }

/-- `pc <- target` (R8). -/
def State.setPc (s : State) (target : Int) : State := { s with pc := target }

/-- `rb <- v` (R8). -/
def State.setRb (s : State) (v : Int) : State := { s with rb := v }

/-- `status <- st` (R8). -/
def State.setStatus (s : State) (st : Status) : State := { s with status := st }

/-! ### Faults -/

/-- Taking a fatal condition (R172): `status <- Faulted(cause, info)` and nothing else. There is no handler, no vector, no
saved register; the return from it is a reset (R176), `State.load`. -/
def raise (c : Cause) (s : State) : State := s.setStatus (.faulted c)

/-- Ends a step (R91): the completed state, or the state before the step with the fault taken. -/
def finish (s : State) (r : Except Cause State) : Host.Outcome State Fault Refusal :=
  match r with
  | .ok t => .next t
  | .error c => .next (raise c s)

/-- The cause of a decode fault (R171). -/
def causeOfDecode : DecodeFault → Cause
  | .illegalOpcode w => .illegalOpcode w
  | .illegalMode w n => .illegalMode w n

/-- The code of a cause (R171). -/
def Cause.code : Cause → Nat
  | .illegalOpcode _ => 1
  | .illegalMode _ _ => 2
  | .immediateWriteTarget _ _ => 3
  | .negativeAddress _ => 4
  | .overflow _ => 5
  | .inputFailure _ => 6

/-! ### The ports -/

/-- `RequestInput()`: the environment's answer (R9, R31). A script that is used up stalls [3]; a datum that is not a word is
a failure (D14) [10]. -/
def requestInput (s : State) : InputAnswer :=
  match s.input.script with
  | [] => .stall
  | .value v :: _ => if s.cfg.isWord v then .value v else .fail
  | .stall :: _ => .stall
  | .fail :: _ => .fail

/-- The value `v` has been consumed: it will not be supplied again (R31). -/
def State.takeInput (s : State) (v : Int) : State :=
  { s with input := { script := s.input.script.tail, consumed := s.input.consumed ++ [v] } }

/-- A stalled request: the engine is as before (R98), and the environment has given its `stall` answer [5]. -/
def State.waitInput (s : State) : State := { s with input := { s.input with script := s.input.script.tail } }

/-- `DeliverOutput(v)`: the environment's answer (R9, R32). A script that is used up takes every word [4]. -/
def deliverOutput (s : State) : OutputAnswer :=
  match s.output.script with
  | [] => .done
  | x :: _ => x

/-- The word `v` has been taken, after all those before it (R32). -/
def State.putOutput (s : State) (v : Int) : State :=
  { s with output := { script := s.output.script.tail, delivered := s.output.delivered ++ [v] } }

/-- A stalled delivery: the engine is as before (R98), and the environment has given its `stall` answer [5]. -/
def State.waitOutput (s : State) : State := { s with output := { s.output with script := s.output.script.tail } }

end Sys2Proof.Machine
end

