-- ==== Sys2Proof/Machine/Operands.lean ====
section
/-!
DEFINITION. What the instructions share before their own effect: the extent check (R93) and the Argument Resolver (R94,
R95, R96). There are these three addressing modes and no others.
-/

namespace Sys2Proof.Machine

/-- The extent check (R93), answering the fall-through program counter `pc + 1 + argc` (R22, R97). It applies to every
opcode, so every meaning begins with it [15]. -/
def fallThrough (s : State) (argc : Nat) : Except Cause Int :=
  if s.cfg.wordMax < s.pc + 1 + argc then .error (.overflow (s.pc + 1 + argc)) else .ok (s.pc + 1 + argc)

/-- The effective address of a Relative argument: `word(rb + raw)`, the sum formed in the integers (R96). -/
def relativeAddress (s : State) (raw : Int) : Except Cause Int := checkWord s.cfg (s.rb + raw)

/-- A target address as it stands, unless it is negative (R95). -/
def targetAddress (addr : Int) : Except Cause Int := do
  let _ ← checkAddress addr
  return addr

/-- The value of a Consumed argument (R94). -/
def resolveValue (s : State) (x : Arg) : Except Cause Int :=
  match x.mode with
  | .immediate => .ok x.raw
  | .positional => memRead s.mem x.raw
  | .relative => do
    let ea ← relativeAddress s x.raw
    memRead s.mem ea

/-- The target address of a Produced argument, argument `n` of the instruction word `w` (R95). The old contents of the
cell play no part. -/
def resolveTarget (s : State) (x : Arg) (w : Int) (n : Nat) : Except Cause Int :=
  match x.mode with
  | .immediate => .error (.immediateWriteTarget w n)
  | .positional => targetAddress x.raw
  | .relative => do
    let ea ← relativeAddress s x.raw
    targetAddress ea

end Sys2Proof.Machine
end

