-- ==== Sys2Proof/Machine/Flags.lean ====
section
/-!
DEFINITION. The machine has no flags and no condition codes (R25). What stands in their place: the 0-or-1 word a comparison
writes to memory (R140, R141) and the test against zero a jump makes of a value it reads itself (R130, R131).
-/

namespace Sys2Proof.Machine

/-- The result word of a comparison: 1 or 0, never anything else (R140, R141). -/
def boolWord (p : Bool) : Int := if p then 1 else 0

/-- `a < b` on signed words, strict (R140). -/
def lessThanWord (a b : Int) : Int := boolWord (decide (a < b))

/-- `a = b` (R141). -/
def equalsWord (a b : Int) : Int := boolWord (decide (a = b))

/-- Every word other than 0 is true, a negative one too (R130). -/
def nonZero (a : Int) : Bool := decide (a ≠ 0)

end Sys2Proof.Machine
end

