-- ==== Sys2Proof/Machine/Formats.lean ====
section
/-!
DEFINITION. The two shapes of execution that several instructions share: computing a word from two values and storing it
(format F3CCP), and jumping on a value (format F2CC) (R62, R90, R97).
-/

namespace Sys2Proof.Machine

/-- Format F3CCP: resolves `a`, `b` and `dest` in this order, computes `f a b` and stores it at `dest` (R90, R113). All
reads come before the one write (R51). `w` is the instruction word, which a fault's info records. -/
def storeBinary (f : Int → Int → Except Cause Int) (w : Int) (a b dest : Arg) (s : State) : Except Cause State := do
  let next ← fallThrough s 3
  let x ← resolveValue s a
  let y ← resolveValue s b
  let t ← resolveTarget s dest w 2
  let v ← f x y
  let m ← memWrite s.mem t v
  return (s.setMem m).setPc next

/-- Format F2CC: resolves `a` and `b`, whether or not the jump is taken, and sets the program counter to `b` if `test a`,
else to the next instruction (R97, R130, R131). The target is not checked (R132 e). -/
def jumpWhen (test : Int → Bool) (a b : Arg) (s : State) : Except Cause State := do
  let next ← fallThrough s 2
  let x ← resolveValue s a
  let y ← resolveValue s b
  return s.setPc (if test x then y else next)

end Sys2Proof.Machine
end

