-- ==== Sys2Proof/Machine/Arithmetic.lean ====
section
/-!
DEFINITION. Add and Mul (41_arithmetic.md).
-/

namespace Sys2Proof.Machine

/-- ADD (R110): `mem[dest] <- word(a + b)`, the sum formed in the integers. -/
def execAdd (a b dest : Arg) (high : Nat) (s : State) : Host.Outcome State Fault Refusal :=
  finish s (storeBinary (fun x y => checkWord s.cfg (x + y)) (Instr.add a b dest high).word a b dest s)

/-- MUL (R111): `mem[dest] <- word(a * b)`, the full signed product formed in the integers. -/
def execMul (a b dest : Arg) (high : Nat) (s : State) : Host.Outcome State Fault Refusal :=
  finish s (storeBinary (fun x y => checkWord s.cfg (x * y)) (Instr.mul a b dest high).word a b dest s)

end Sys2Proof.Machine
end

