-- ==== Sys2Proof/Machine/Compare.lean ====
section
/-!
DEFINITION. LessThan and Equals (44_compare.md). A comparison cannot overflow; its result is always written.
-/

namespace Sys2Proof.Machine

/-- LT (R140): `mem[dest] <- 1 if a < b else 0`. -/
def execLessThan (a b dest : Arg) (high : Nat) (s : State) : Host.Outcome State Fault Refusal :=
  finish s (storeBinary (fun x y => .ok (lessThanWord x y)) (Instr.lessThan a b dest high).word a b dest s)

/-- EQ (R141): `mem[dest] <- 1 if a = b else 0`. -/
def execEquals (a b dest : Arg) (high : Nat) (s : State) : Host.Outcome State Fault Refusal :=
  finish s (storeBinary (fun x y => .ok (equalsWord x y)) (Instr.equals a b dest high).word a b dest s)

end Sys2Proof.Machine
end

