-- ==== Sys2Proof/Machine/Halt.lean ====
section
/-!
DEFINITION. Halt (46_halt.md).
-/

namespace Sys2Proof.Machine

/-- The new state of HLT: `status <- Halted`, and the program counter past the word (R160; decision D10 of the spec). -/
def haltState (s : State) : Except Cause State := do
  let next ← fallThrough s 0
  return (s.setStatus .halted).setPc next

/-- HLT (R160). -/
def execHalt (s : State) : Host.Outcome State Fault Refusal :=
  finish s (haltState s)

end Sys2Proof.Machine
end

