-- ==== Sys2Proof/Machine/InputOutput.lean ====
section
/-!
DEFINITION. Input and Output (42_io.md), the only instructions that use a port (R33).

A stall is a next state in which the engine is as before and its program counter still addresses the instruction, so that
the next step attempts it again (R91 c, R98) [5].
-/

namespace Sys2Proof.Machine

/-- What Input resolves before it asks its port: the fall-through program counter and the target (R95, R120). -/
def inputOperands (w : Int) (dest : Arg) (s : State) : Except Cause (Int × Int) := do
  let next ← fallThrough s 1
  let t ← resolveTarget s dest w 0
  return (next, t)

/-- Input with its operands resolved asks the port once (R120). -/
def inputAt (next t : Int) (s : State) : Host.Outcome State Fault Refusal :=
  match requestInput s with
  | .value v => finish s (do
      let m ← memWrite s.mem t v
      return ((s.setMem m).takeInput v).setPc next)
  | .stall => .next s.waitInput
  | .fail => .next (raise (.inputFailure s.pc) s)

/-- IN (R120): `mem[dest] <- ` the value obtained from the input port. -/
def execInput (dest : Arg) (high : Nat) (s : State) : Host.Outcome State Fault Refusal :=
  match inputOperands (Instr.input dest high).word dest s with
  | .ok (next, t) => inputAt next t s
  | .error c => .next (raise c s)

/-- What Output resolves before it offers its port the value: the fall-through program counter and the value (R121). -/
def outputOperands (a : Arg) (s : State) : Except Cause (Int × Int) := do
  let next ← fallThrough s 1
  let x ← resolveValue s a
  return (next, x)

/-- Output with its operand resolved offers the value once (R121). -/
def outputAt (next x : Int) (s : State) : Host.Outcome State Fault Refusal :=
  match deliverOutput s with
  | .done => .next ((s.putOutput x).setPc next)
  | .stall => .next s.waitOutput

/-- OUT (R121): delivers `a` to the output port. -/
def execOutput (a : Arg) (s : State) : Host.Outcome State Fault Refusal :=
  match outputOperands a s with
  | .ok (next, x) => outputAt next x s
  | .error c => .next (raise c s)

end Sys2Proof.Machine
end

