-- ==== Sys2Proof/Machine/Jumps.lean ====
section
/-!
DEFINITION. JumpIfTrue and JumpIfFalse (43_jumps.md). `high` has no part in them: only a Produced argument's fault records
the instruction word.
-/

namespace Sys2Proof.Machine

/-- JT (R130): `pc <- b` if `a` is not 0, else `pc + 3`. -/
def execJumpIfTrue (a b : Arg) (s : State) : Host.Outcome State Fault Refusal :=
  finish s (jumpWhen nonZero a b s)

/-- JF (R131): `pc <- b` if `a` is 0, else `pc + 3`. -/
def execJumpIfFalse (a b : Arg) (s : State) : Host.Outcome State Fault Refusal :=
  finish s (jumpWhen (fun x => !nonZero x) a b s)

end Sys2Proof.Machine
end

