-- ==== Sys2Proof/Machine/RelativeBase.lean ====
section
/-!
DEFINITION. AdjustRelativeBase (45_relative_base.md), the only instruction that writes `rb`.
-/

namespace Sys2Proof.Machine

/-- The new state of ARB: the operand is resolved with the old base, then `rb <- word(rb + a)` (R94, R150). -/
def adjustBase (a : Arg) (s : State) : Except Cause State := do
  let next ← fallThrough s 1
  let x ← resolveValue s a
  let base ← checkWord s.cfg (s.rb + x)
  return (s.setRb base).setPc next

/-- ARB (R150): `rb <- rb + a`, and `pc <- pc + 2`. -/
def execAdjustRelativeBase (a : Arg) (s : State) : Host.Outcome State Fault Refusal :=
  finish s (adjustBase a s)

end Sys2Proof.Machine
end

