-- ==== Sys2Proof/Machine/Dispatch.lean ====
section
/-!
DEFINITION. The meaning of every instruction, one arm each (R65): the part of the step of R90 after the decode phase, from
the extent check (R93) on.
-/

namespace Sys2Proof.Machine

def exec (i : Instr) (s : State) : Host.Outcome State Fault Refusal :=
  match i with
  | .add a b dest high => Sys2Proof.Machine.execAdd a b dest high s
  | .mul a b dest high => Sys2Proof.Machine.execMul a b dest high s
  | .input dest high => Sys2Proof.Machine.execInput dest high s
  | .output a _ => Sys2Proof.Machine.execOutput a s
  | .jumpIfTrue a b _ => Sys2Proof.Machine.execJumpIfTrue a b s
  | .jumpIfFalse a b _ => Sys2Proof.Machine.execJumpIfFalse a b s
  | .lessThan a b dest high => Sys2Proof.Machine.execLessThan a b dest high s
  | .equals a b dest high => Sys2Proof.Machine.execEquals a b dest high s
  | .adjustRelativeBase a _ => Sys2Proof.Machine.execAdjustRelativeBase a s
  | .halt _ => Sys2Proof.Machine.execHalt s

end Sys2Proof.Machine
end

