-- ==== Sys2Proof/Machine/Fetch.lean ====
section
/-!
DEFINITION. Fetching and decoding the instruction at the program counter (R90 phases 1 and 2, R92), and laying the words of
an instruction in memory.
-/

namespace Sys2Proof.Machine

/-- Raw word `n` of the instruction at `pc`: `mem[pc + n + 1]` (R10, R60). An ordinary read: the memory has no instruction
cache and the program is ordinary memory (R54) [15]. -/
def rawWord (s : State) (n : Nat) : Int := s.mem.read (s.pc + n + 1).toNat

/-- The fetch and the decode of one step (R92): the sign of `pc`, then the checks of the Decoder on `mem[pc]`. -/
def fetchDecode (s : State) : Except Cause Instr := do
  let w ← memRead s.mem s.pc
  match decodeWith w (rawWord s) with
  | .ok i => return i
  | .error f => throw (causeOfDecode f)

/-- The state with `ws` stored from the program counter on, ready to run: what `State.withFetchWord` places. -/
def State.withWordsAtPc (s : State) (ws : List Int) : State :=
  (s.setMem (s.mem.writeWords s.pc.toNat ws)).setStatus .running

end Sys2Proof.Machine
end

