-- ==== Sys2Proof/Machine/Step.lean ====
section
/-!
DEFINITION. One step (R90, R91, R99).
-/

namespace Sys2Proof.Machine

/-- One step. While Running it fetches and decodes the instruction at `pc` and runs it, or takes the fault of the fetch or
of the decode; an engine that has Halted or Faulted is left as it is (R99). A step always ends in a next state. -/
def step (s : State) : Host.Outcome State Fault Refusal :=
  match s.status with
  | .running =>
    match fetchDecode s with
    | .ok i => exec i s
    | .error c => .next (raise c s)
  | .halted => .next s
  | .faulted _ => .next s

/-- The state whose next step runs the instruction whose bits are `w`, `nbits` of them: its words, and zeros up to the
longest instruction, stored from `pc` on, and the engine Running, which a fetch needs [9], [11]. -/
def State.withFetchWord (s : State) (nbits w : Nat) : State := s.withWordsAtPc (tableWords nbits w)

end Sys2Proof.Machine
end

