-- ==== Sys2Proof/Machine/Control.lean ====
section
/-!
DEFINITION. The host's operations on an engine (R34, R200 to R205): reset with a program, `step()`, `run()`, reads.
-/

namespace Sys2Proof.Machine

/-- May the list be a program image at this width? Every element a word, and the image no longer than the address space
(R202 a, b). The loader that refuses others is outside the engine. -/
def programFits (c : Config) (program : List Int) : Bool :=
  program.all c.isWord && decide ((program.length : Int) ≤ c.wordMax + 1)

/-- `Reset(PROGRAM, io)` (R201): element `i` of the program at address `i`, every other cell 0, both registers 0, Running,
the ports bound to the environment given by its two scripts, nothing consumed and nothing delivered. It keeps nothing of an
engine that was there before, and is the only way out of Halted and Faulted (R176, R200). -/
def State.load (c : Config) (program : List Int) (inputs : List InputAnswer) (outputs : List OutputAnswer) : State where
  cfg    := c
  mem    := Memory.writeWords [] 0 program
  pc     := 0
  rb     := 0
  status := .running
  input  := ⟨inputs, []⟩
  output := ⟨outputs, []⟩

/-- The host's `step()` as a function on states (R204). The last two arms are never reached: a step of this machine
always ends in a next state. -/
def hostStep (s : State) : State :=
  match step s with
  | .next t => t
  | .fault _ => s
  | .refused _ => s

/-- `n` calls of `step()`. Steps of `run()` are the same steps (R183). -/
def runFor : Nat → State → State
  | 0, s => s
  | n + 1, s => runFor n (hostStep s)

/-- `run()` started in `s` returns with the engine in `t` (R100): some number of steps leads to `t`, which is not Running,
and the engine was Running before each of them. A run that never ends returns nothing [13]. -/
def RunReturns (s t : State) : Prop :=
  ∃ n, runFor n s = t ∧ t.status ≠ .running ∧ ∀ k, k < n → (runFor k s).status = .running

/-- The host's read of `mem[a]` (R204): the same default-zero read as the engine's. -/
def hostRead (s : State) (a : Nat) : Int := s.mem.read a

end Sys2Proof.Machine
end

