-- ==== Sys2Proof/Machine/Ring.lean ====
section
/-!
DEFINITION. The environment the spec describes around engines (60_exceptions.md section 6): the I/O providers as scripts
(R186), and the amplifier ring (R187, R188). It is no part of an engine (R4 b); it is given so that the spec's ring can be
run on the engines of this model [14].
-/

namespace Sys2Proof.Machine

/-- The terminal provider's input (R186): each line is an integer or unparsable, and after the last line the source is
closed. -/
def terminalScript (lines : List (Option Int)) : List InputAnswer :=
  lines.map (fun l => match l with | some v => .value v | none => .fail) ++ [.fail]

/-- The scripted provider's input (R186), for as long as its sequence lasts. What it answers afterwards the spec leaves to
the environment (U10): here the request stalls [3]. -/
def scriptedScript (values : List Int) : List InputAnswer := values.map .value

/-- The channel provider's input (R186): one phase value, then the inbound queue; empty, it stalls and never fails. -/
def channelScript (phase : Int) (queue : List Int) : List InputAnswer := scriptedScript (phase :: queue)

/-- A ring of engines (R187). Queue `i`, written by engine `i` and read by engine `i + 1` (the last by engine 0), is the
part of its reader's input script not yet consumed. -/
structure Ring where
  /-- The engines `0 .. N-1`. -/
  engines : List State
  /-- The external result queue, oldest first. -/
  results : List Int
  deriving DecidableEq, Repr

/-- The inbound values of engine `i` at the start: its phase, and the entry value for the first engine (R187). -/
def ringInput (entry : Int) (i : Nat) (phase : Int) : List InputAnswer :=
  channelScript phase (if i = 0 then [entry] else [])

/-- The ring before its first step: one engine per phase value, each with its own copy of the program (R185, R187). -/
def Ring.start (c : Config) (program : List Int) (phases : List Int) (entry : Int) : Ring where
  engines := phases.mapIdx fun i p => State.load c program (ringInput entry i p) []
  results := []

/-- Values pushed onto the queue that an engine reads, after all those already in it (R187: FIFO). -/
def State.pushInput (s : State) (vs : List Int) : State :=
  { s with input := { s.input with script := s.input.script ++ scriptedScript vs } }

/-- The words a step from `s` to `t` has delivered (R32). -/
def newOutputs (s t : State) : List Int := t.output.delivered.drop s.output.delivered.length

/-- One step of engine `i`: what it delivers goes onto queue `i`, and from the last engine onto the result queue as well
(R187). The order in which engines step is the environment's (R188, U18): an argument. -/
def Ring.stepAt (r : Ring) (i : Nat) : Ring :=
  match r.engines[i]? with
  | none => r
  | some s =>
    let out := newOutputs s (hostStep s)
    let n := r.engines.length
    { engines := (r.engines.set i (hostStep s)).modify ((i + 1) % n) (·.pushInput out)
      results := if i + 1 = n then r.results ++ out else r.results }

/-- The ring after the engines have stepped in the order of the schedule. -/
def Ring.runSchedule (r : Ring) : List Nat → Ring
  | [] => r
  | i :: is => (r.stepAt i).runSchedule is

/-- The value the ring returns: the last on the result queue, once every engine has halted. If one has faulted or is still
running there is none (R188, U11). -/
def Ring.result (r : Ring) : Option Int :=
  if r.engines.all (fun s => decide (s.status = .halted)) then r.results.getLast? else none

end Sys2Proof.Machine
end

