-- ==== Sys2Proof/Safety.lean ====
section
/-!
DEFINITION. What claims are stated in: the invariant of the state (R29), the end of a run (R161), the states an engine can
reach from a reset.
-/

namespace Sys2Proof.Machine

/-- A listed cell is at an address of the address space and holds a word (R26, R29 a). -/
def cellFits (c : Config) (cell : Nat × Int) : Bool := decide ((cell.1 : Int) ≤ c.wordMax) && c.isWord cell.2

/-- The state is one the spec allows (R29 a): the memory is canonical, and every cell, `pc` and `rb` hold words. -/
def State.wf (s : State) : Bool :=
  s.mem.wf && s.mem.all (cellFits s.cfg) && s.cfg.isWord s.pc && s.cfg.isWord s.rb

/-- The run of the engine has ended (R161). -/
def State.ended (s : State) : Prop := s.status ≠ .running

/-- The run has ended well: exactly when the engine has Halted (R161). -/
def State.endedWell (s : State) : Prop := s.status = .halted

/-- Some number of steps leads from `s` to `t`. -/
def Reaches (s t : State) : Prop := ∃ n, runFor n s = t

/-- A run from `s` is safe if no step of it faults. -/
def SafeRun (s : State) : Prop := ∀ t c, Reaches s t → t.status ≠ .faulted c

end Sys2Proof.Machine
end

