-- ==== Sys2Proof/WellFormed.lean ====
section
/-!
DEFINITION. Which instructions can stand in memory (R70, R72, R202): the instruction word and every raw word are words.
And, apart from that, which ones are legal: no Produced argument is Immediate (R68, R70). An instruction with an Immediate
write target is well formed, since a memory can hold it and the decode phase passes it; it faults when it is run.
-/

namespace Sys2Proof

/-- The instruction word is a word: the unexamined digits do not push it out of the range (R69, R70). -/
def Instr.wordFits (c : Config) (i : Instr) : Bool := c.isWord i.word

/-- Every raw word is a word (R72). -/
def Instr.rawsFit (c : Config) (i : Instr) : Bool := i.args.all fun x => c.isWord x.2.raw

/-- The words of the instruction can be the contents of cells (R29 a, R202 a). -/
def Instr.wellFormed (c : Config) (i : Instr) : Bool := i.wordFits c && i.rawsFit c

/-- No Produced argument is Immediate (R68): what R70 calls a legal instruction word. -/
def Instr.legal (i : Instr) : Bool := i.args.all fun x => !(x.1 == .produced && x.2.mode == .immediate)

end Sys2Proof
end

