-- ==== Sys2Proof/Certificates/Slice0/Obligations.lean ====
section
/-!
DEFINITION. The statements about the machine, one per obligation. Each docstring names the rules of spec/ it rests on; D<n>
is a decision of 92_eei_decisions.md, which the spec marks as its own, and [n] an entry of the model's assumption log.
-/

open Sys2Proof Sys2Proof.Machine

/-! ### Reset -/

/-- R28: after reset both registers are 0, the engine is Running, every cell reads 0, and no value has been consumed or
delivered. -/
def Obligations.ResetLeavesEngineReady : Prop :=
  State.reset.pc = 0 ∧ State.reset.rb = 0 ∧ State.reset.status = .running ∧ (∀ a, hostRead State.reset a = 0) ∧
    State.reset.input.consumed = [] ∧ State.reset.output.delivered = [] ∧ State.reset.wf = true

/-- R201: a reset with a program puts element `i` of the program at address `i` and 0 everywhere else, sets both registers
to 0 and the engine Running, and binds the ports with nothing consumed and nothing delivered. -/
def Obligations.LoadPlacesProgram : Prop :=
  ∀ (c : Config) (program : List Int) (ins : List InputAnswer) (outs : List OutputAnswer),
    (∀ i, hostRead (State.load c program ins outs) i = program.getD i 0) ∧
    (State.load c program ins outs).pc = 0 ∧ (State.load c program ins outs).rb = 0 ∧
    (State.load c program ins outs).status = .running ∧ (State.load c program ins outs).cfg = c ∧
    (State.load c program ins outs).input.script = ins ∧ (State.load c program ins outs).input.consumed = [] ∧
    (State.load c program ins outs).output.script = outs ∧ (State.load c program ins outs).output.delivered = []

/-- R202 (c), R43: the first step after a reset with the empty program fetches 0 and faults with IllegalOpcode(0). -/
def Obligations.EmptyProgramFaultsAtFirstStep : Prop :=
  ∀ (c : Config) (ins : List InputAnswer) (outs : List OutputAnswer),
    step (State.load c [] ins outs) = .next { State.load c [] ins outs with status := .faulted (.illegalOpcode 0) }

/-- R202 (a), (b) and R29 (a): a reset with any program image that fits leaves a state of the invariant. -/
def Obligations.LoadedStateIsWellFormed : Prop :=
  ∀ (c : Config) (program : List Int) (ins : List InputAnswer) (outs : List OutputAnswer),
    programFits c program = true → (State.load c program ins outs).wf = true

/-! ### Memory -/

/-- R42: a write to a negative address faults; any other write stores the word at its address and leaves every other cell
as it was; a write to a target the resolver has answered never faults. -/
def Obligations.WriteStoresOneWord : Prop :=
  (∀ (m : Memory) (addr v : Int), addr < 0 → memWrite m addr v = .error (.negativeAddress addr)) ∧
  (∀ (m : Memory) (addr v : Int), 0 ≤ addr → ∃ m', memWrite m addr v = .ok m' ∧ m'.read addr.toNat = v ∧
    ∀ b, b ≠ addr.toNat → m'.read b = m.read b) ∧
  (∀ (s : State) (x : Arg) (w : Int) (n : Nat) (t v : Int), resolveTarget s x w n = .ok t →
    memWrite s.mem t v = .ok (s.mem.write t.toNat v))

/-- R27, R43: two canonical memories that read the same everywhere are the same memory, so a cell written with 0 and a cell
never written cannot be told apart. -/
def Obligations.CanonicalMemoryIsUnique : Prop :=
  (∀ m n : Memory, m.wf = true → n.wf = true → (∀ a, m.read a = n.read a) → m = n) ∧
  (∀ (m : Memory) (a : Nat), m.wf = true → m.read a = 0 → m.write a 0 = m)

/-! ### Encoding -/

/-- R60 to R63, R69, R73: decoding the words of any instruction, whatever words follow them, gives the instruction back with
every mode, raw word and unexamined digit, and the words that follow. -/
def Obligations.DecodeEncodeRoundTrip : Prop :=
  ∀ (i : Instr) (rest : List Int), decode (encode i ++ rest) = .ok (i, rest)

/-- R60 to R63, R73, and log entry [8] for the unexamined digits: the words that decode to an instruction are the words it is
encoded in. That no two lists of words decode to one instruction is so because the model keeps the unexamined digits in the
instruction [8]; by R69 they make no other instruction of the machine, and 1 and 9900001 are the same ADD there. -/
def Obligations.EncodeDecodeRoundTrip : Prop :=
  ∀ (ws : List Int) (i : Instr) (rest : List Int), decode ws = .ok (i, rest) → encode i ++ rest = ws

/-- R61, R62, R63, R65: the two low digits are the opcode, digit `n + 2` selects the mode of argument `n` (0 Positional,
1 Immediate, 2 Relative), raw word `n` is its raw word, and the kinds are those of the opcode's format. -/
def Obligations.DigitsSelectOpcodeAndModes : Prop :=
  ∀ (w : Int) (raw : Nat → Int) (i : Instr), decodeWith w raw = .ok i →
    0 ≤ w ∧ (i.opcode : Int) = w % 100 ∧
    i.args.map (·.1) = (if w % 100 ∈ ([1, 2, 7, 8] : List Int) then [.consumed, .consumed, .produced]
      else if w % 100 ∈ ([5, 6] : List Int) then [.consumed, .consumed]
      else if w % 100 ∈ ([4, 9] : List Int) then [.consumed] else if w % 100 = 3 then [.produced] else []) ∧
    ∀ (n : Nat) (k : ArgKind) (x : Arg), i.args[n]? = some (k, x) →
      x.raw = raw n ∧ (x.mode = .positional ↔ w / 10 ^ (n + 2) % 10 = 0) ∧
      (x.mode = .immediate ↔ w / 10 ^ (n + 2) % 10 = 1) ∧ (x.mode = .relative ↔ w / 10 ^ (n + 2) % 10 = 2)

/-- Words of the spec's own examples (R75, R130, 95_test_vectors.md 1.4, 1.5, 1.7, 2.1, 2.2, 2.3, 2.5) and the instructions
they stand for. The word 10099 is HLT by decision D6 and the 100 kept in it is log entry [8]; 1107 is LT by decision D5. -/
def Obligations.SpecExampleWordsDecode : Prop :=
  decode [1002, 4, 3, 4] = .ok (.mul ⟨.positional, 4⟩ ⟨.immediate, 3⟩ ⟨.positional, 4⟩ 0, []) ∧
  decode [21201, 2, 3, -1] = .ok (.add ⟨.relative, 2⟩ ⟨.immediate, 3⟩ ⟨.relative, -1⟩ 0, []) ∧
  decode [203, -2] = .ok (.input ⟨.relative, -2⟩ 0, []) ∧
  decode [204, -1] = .ok (.output ⟨.relative, -1⟩ 0, []) ∧
  decode [1005, 28, 6] = .ok (.jumpIfTrue ⟨.positional, 28⟩ ⟨.immediate, 6⟩ 0, []) ∧
  decode [1006, 101, 0] = .ok (.jumpIfFalse ⟨.positional, 101⟩ ⟨.immediate, 0⟩ 0, []) ∧
  decode [1107, 3, 8, 5] = .ok (.lessThan ⟨.immediate, 3⟩ ⟨.immediate, 8⟩ ⟨.positional, 5⟩ 0, []) ∧
  decode [1008, 100, 16, 101] = .ok (.equals ⟨.positional, 100⟩ ⟨.immediate, 16⟩ ⟨.positional, 101⟩ 0, []) ∧
  decode [109, 1] = .ok (.adjustRelativeBase ⟨.immediate, 1⟩ 0, []) ∧
  decode [10099] = .ok (.halt 100, [])

/-- R70: the legal instructions whose unexamined digits are all zero are exactly those whose word is in the spec's table of
canonical words, row by row. -/
def Obligations.LegalCanonicalWordsAreTheTable : Prop :=
  ∀ i : Instr, (i.legal = true ∧ i.high = 0) ↔ i.word ∈ (match i with
    | .add .. =>
      [1, 101, 201, 1001, 1101, 1201, 2001, 2101, 2201, 20001, 20101, 20201, 21001, 21101, 21201, 22001, 22101, 22201]
    | .mul .. =>
      [2, 102, 202, 1002, 1102, 1202, 2002, 2102, 2202, 20002, 20102, 20202, 21002, 21102, 21202, 22002, 22102, 22202]
    | .input .. =>
      [3, 203]
    | .output .. =>
      [4, 104, 204]
    | .jumpIfTrue .. =>
      [5, 105, 205, 1005, 1105, 1205, 2005, 2105, 2205]
    | .jumpIfFalse .. =>
      [6, 106, 206, 1006, 1106, 1206, 2006, 2106, 2206]
    | .lessThan .. =>
      [7, 107, 207, 1007, 1107, 1207, 2007, 2107, 2207, 20007, 20107, 20207, 21007, 21107, 21207, 22007, 22107, 22207]
    | .equals .. =>
      [8, 108, 208, 1008, 1108, 1208, 2008, 2108, 2208, 20008, 20108, 20208, 21008, 21108, 21208, 22008, 22108, 22208]
    | .adjustRelativeBase .. =>
      [9, 109, 209]
    | .halt .. =>
      [99] : List Int)

/-- R69 (decision D6): adding to a word any number that changes only the digits above the last mode digit leaves a word of
the same instruction with the same arguments, and of the same effect if the instruction is legal. -/
def Obligations.UnexaminedDigitsDoNotMatter : Prop :=
  ∀ (w k : Nat) (raw : Nat → Int) (i : Instr), decodeWith w raw = .ok i →
    ∃ j, decodeWith ((w + k * 10 ^ (2 + i.argc) : Nat) : Int) raw = .ok j ∧ j.opcode = i.opcode ∧ j.args = i.args ∧
      (i.legal = true → ∀ s, exec j s = exec i s)

/-! ### Faults of the decode phase -/

/-- R66, with R64 for the sign: a step of a Running engine at an address records IllegalOpcode exactly when the fetched word
is negative or its two low digits are none of the ten opcodes, and it records that word. -/
def Obligations.IllegalOpcodeFaultsExactly : Prop :=
  ∀ s t : State, s.status = .running → 0 ≤ s.pc → step s = .next t → ∀ w : Int,
    t.status = .faulted (.illegalOpcode w) ↔
      w = s.mem.read s.pc.toNat ∧ (w < 0 ∨ w % 100 ∉ ([1, 2, 3, 4, 5, 6, 7, 8, 9, 99] : List Int))

/-- R67 (decision D9 for the order): a step of a Running engine at an address records IllegalMode exactly when the fetched
word has an opcode and a mode digit 3 to 9 among those of the arguments it has, and it records the least such argument. -/
def Obligations.IllegalModeFaultsExactly : Prop :=
  ∀ s t : State, s.status = .running → 0 ≤ s.pc → step s = .next t → ∀ (w : Int) (n : Nat),
    t.status = .faulted (.illegalMode w n) ↔
      w = s.mem.read s.pc.toNat ∧ 0 ≤ w ∧
      n < (if w % 100 ∈ ([1, 2, 7, 8] : List Int) then 3 else if w % 100 ∈ ([5, 6] : List Int) then 2
        else if w % 100 ∈ ([3, 4, 9] : List Int) then 1 else 0) ∧
      3 ≤ w / 10 ^ (n + 2) % 10 ∧ ∀ m, m < n → w / 10 ^ (m + 2) % 10 ≤ 2

/-! ### Arguments -/

/-- R94: the value of a Consumed argument. Immediate: the raw word. Positional: the cell at the raw word. Relative: the cell
at `rb + raw`, formed in the integers; a sum that is not a word and a negative address fault. -/
def Obligations.ConsumedArgumentValue : Prop :=
  ∀ (s : State) (raw : Int),
    resolveValue s ⟨.immediate, raw⟩ = .ok raw ∧
    (0 ≤ raw → resolveValue s ⟨.positional, raw⟩ = .ok (s.mem.read raw.toNat)) ∧
    (raw < 0 → resolveValue s ⟨.positional, raw⟩ = .error (.negativeAddress raw)) ∧
    (s.cfg.isWord (s.rb + raw) = false → resolveValue s ⟨.relative, raw⟩ = .error (.overflow (s.rb + raw))) ∧
    (s.cfg.isWord (s.rb + raw) = true → 0 ≤ s.rb + raw →
      resolveValue s ⟨.relative, raw⟩ = .ok (s.mem.read (s.rb + raw).toNat)) ∧
    (s.cfg.isWord (s.rb + raw) = true → s.rb + raw < 0 →
      resolveValue s ⟨.relative, raw⟩ = .error (.negativeAddress (s.rb + raw)))

/-- R95 (decision D9 for the phase of the check): the target of a Produced argument. Immediate is illegal; Positional is the
raw word; Relative is `rb + raw`, formed in the integers; a sum that is not a word and a negative address fault here. -/
def Obligations.ProducedArgumentAddress : Prop :=
  ∀ (s : State) (raw w : Int) (n : Nat),
    resolveTarget s ⟨.immediate, raw⟩ w n = .error (.immediateWriteTarget w n) ∧
    (0 ≤ raw → resolveTarget s ⟨.positional, raw⟩ w n = .ok raw) ∧
    (raw < 0 → resolveTarget s ⟨.positional, raw⟩ w n = .error (.negativeAddress raw)) ∧
    (s.cfg.isWord (s.rb + raw) = false → resolveTarget s ⟨.relative, raw⟩ w n = .error (.overflow (s.rb + raw))) ∧
    (s.cfg.isWord (s.rb + raw) = true → 0 ≤ s.rb + raw → resolveTarget s ⟨.relative, raw⟩ w n = .ok (s.rb + raw)) ∧
    (s.cfg.isWord (s.rb + raw) = true → s.rb + raw < 0 →
      resolveTarget s ⟨.relative, raw⟩ w n = .error (.negativeAddress (s.rb + raw)))

/-- R93 (decision D12): an instruction of any opcode that does not lie wholly below WORD_MAX faults with
Overflow(pc + 1 + argc), whatever its arguments are. -/
def Obligations.ExtentOverflowFaultsEveryInstruction : Prop :=
  ∀ (i : Instr) (s : State), s.cfg.wordMax < s.pc + 1 + i.argc →
    exec i s = .next { s with status := .faulted (.overflow (s.pc + 1 + i.argc)) }

/-- R96, R174 (decision D9 for the order): arguments are resolved in ascending order, and the fault of the first that cannot
be resolved is the fault of the step, for every instruction. -/
def Obligations.FirstBadArgumentIsReported : Prop :=
  ∀ (i : Instr) (s : State) (n : Nat) (k : ArgKind) (x : Arg) (c : Cause),
    s.pc + 1 + i.argc ≤ s.cfg.wordMax → i.args[n]? = some (k, x) →
    (∀ (m : Nat) (k' : ArgKind) (x' : Arg), m < n → i.args[m]? = some (k', x') → ∃ v, resolveValue s x' = .ok v) →
    (k = .consumed → resolveValue s x = .error c) → (k = .produced → resolveTarget s x i.word n = .error c) →
    exec i s = .next { s with status := .faulted c }

/-- R68: an Immediate Produced argument faults with ImmediateWriteTarget: argument 2 of ADD, MUL, LT and EQ and argument 0
of IN. It is an error of the resolve phase: an argument before it that cannot be resolved is reported instead, and a word
that does not pass the decode phase never comes so far. -/
def Obligations.ImmediateWriteTargetFaults : Prop :=
  (∀ (i : Instr) (a b dest : Arg) (h : Nat) (s : State),
    (i = .add a b dest h ∨ i = .mul a b dest h ∨ i = .lessThan a b dest h ∨ i = .equals a b dest h) →
    dest.mode = .immediate → s.pc + 4 ≤ s.cfg.wordMax →
      (∀ x y, resolveValue s a = .ok x → resolveValue s b = .ok y →
        exec i s = .next { s with status := .faulted (.immediateWriteTarget i.word 2) }) ∧
      (∀ c, resolveValue s a = .error c → exec i s = .next { s with status := .faulted c }) ∧
      (∀ x c, resolveValue s a = .ok x → resolveValue s b = .error c →
        exec i s = .next { s with status := .faulted c })) ∧
  (∀ (dest : Arg) (h : Nat) (s : State), dest.mode = .immediate → s.pc + 2 ≤ s.cfg.wordMax →
    exec (.input dest h) s =
      .next { s with status := .faulted (.immediateWriteTarget (Instr.input dest h).word 0) }) ∧
  (∀ (s : State) (c : Cause), s.status = .running → fetchDecode s = .error c →
    step s = .next { s with status := .faulted c })

/-! ### The instructions -/

/-- R110 (decision D2 for the overflow): ADD stores the sum of its two values at its target and passes to `pc + 4`; a sum
that is not a word faults with Overflow and stores nothing. -/
def Obligations.AddStoresSum : Prop :=
  ∀ (a b dest : Arg) (h : Nat) (s : State) (x y t : Int), s.pc + 4 ≤ s.cfg.wordMax →
    resolveValue s a = .ok x → resolveValue s b = .ok y → resolveTarget s dest (Instr.add a b dest h).word 2 = .ok t →
    (s.cfg.isWord (x + y) = true → exec (.add a b dest h) s =
      .next { s with mem := s.mem.write t.toNat (x + y), pc := s.pc + 4 }) ∧
    (s.cfg.isWord (x + y) = false → exec (.add a b dest h) s = .next { s with status := .faulted (.overflow (x + y)) })

/-- R111 (decision D2 for the overflow): MUL stores the full signed product of its two values at its target and passes to
`pc + 4`; a product that is not a word faults with Overflow and stores nothing. -/
def Obligations.MulStoresProduct : Prop :=
  ∀ (a b dest : Arg) (h : Nat) (s : State) (x y t : Int), s.pc + 4 ≤ s.cfg.wordMax →
    resolveValue s a = .ok x → resolveValue s b = .ok y → resolveTarget s dest (Instr.mul a b dest h).word 2 = .ok t →
    (s.cfg.isWord (x * y) = true → exec (.mul a b dest h) s =
      .next { s with mem := s.mem.write t.toNat (x * y), pc := s.pc + 4 }) ∧
    (s.cfg.isWord (x * y) = false → exec (.mul a b dest h) s = .next { s with status := .faulted (.overflow (x * y)) })

/-- R140 (decision D5 for the opcode 7): LT stores 1 if its first value is less than its second as signed words, else 0,
and passes to `pc + 4`; it never faults in the execute phase. -/
def Obligations.LessThanStoresOneOrZero : Prop :=
  ∀ (a b dest : Arg) (h : Nat) (s : State) (x y t : Int), s.pc + 4 ≤ s.cfg.wordMax →
    resolveValue s a = .ok x → resolveValue s b = .ok y →
    resolveTarget s dest (Instr.lessThan a b dest h).word 2 = .ok t →
    (Instr.lessThan a b dest h).word % 100 = 7 ∧
    exec (.lessThan a b dest h) s =
      .next { s with mem := s.mem.write t.toNat (if x < y then 1 else 0), pc := s.pc + 4 }

/-- R141: EQ has opcode 8, two Consumed arguments and a Produced one, and the canonical words of R70; it stores 1 if its two
values are equal, else 0, and passes to `pc + 4`; it never faults in the execute phase. -/
def Obligations.EqualsStoresOneOrZero : Prop :=
  ∀ (a b dest : Arg) (h : Nat),
    (Instr.equals a b dest h).word % 100 = 8 ∧
    (Instr.equals a b dest h).args = [(.consumed, a), (.consumed, b), (.produced, dest)] ∧
    (dest.mode ≠ .immediate → (Instr.equals a b dest 0).word ∈ ([8, 108, 208, 1008, 1108, 1208, 2008, 2108, 2208, 20008,
      20108, 20208, 21008, 21108, 21208, 22008, 22108, 22208] : List Int)) ∧
    ∀ (s : State) (x y t : Int), s.pc + 4 ≤ s.cfg.wordMax → resolveValue s a = .ok x → resolveValue s b = .ok y →
      resolveTarget s dest (Instr.equals a b dest h).word 2 = .ok t →
      exec (.equals a b dest h) s =
        .next { s with mem := s.mem.write t.toNat (if x = y then 1 else 0), pc := s.pc + 4 }

/-- R120 (decision D14; log entries [3], [5], [10] for the script): IN with its target resolved. The environment's next
answer a value that is a word: it is stored unchanged, consumed once, and `pc + 2`. A datum that is no word, or a failure:
InputFailure(pc), nothing consumed. A stall: nothing but the environment's script changes. -/
def Obligations.InputStoresSuppliedValue : Prop :=
  ∀ (dest : Arg) (h : Nat) (s : State) (t : Int) (rest : List InputAnswer), s.pc + 2 ≤ s.cfg.wordMax →
    resolveTarget s dest (Instr.input dest h).word 0 = .ok t →
    (∀ v, s.input.script = .value v :: rest → s.cfg.isWord v = true → exec (.input dest h) s =
      .next { s with mem := s.mem.write t.toNat v, pc := s.pc + 2, input := ⟨rest, s.input.consumed ++ [v]⟩ }) ∧
    (∀ v, s.input.script = .value v :: rest → s.cfg.isWord v = false → exec (.input dest h) s =
      .next { s with status := .faulted (.inputFailure s.pc) }) ∧
    (s.input.script = .fail :: rest → exec (.input dest h) s =
      .next { s with status := .faulted (.inputFailure s.pc) }) ∧
    (s.input.script = .stall :: rest → exec (.input dest h) s = .next { s with input := ⟨rest, s.input.consumed⟩ }) ∧
    (s.input.script = [] → exec (.input dest h) s = .next s)

/-- R121 (log entries [4], [5] for the script): OUT with its value resolved. Taken by the environment: delivered once, after
all earlier ones, and `pc + 2`. A stall: nothing but the environment's script changes. -/
def Obligations.OutputDeliversValue : Prop :=
  ∀ (a : Arg) (h : Nat) (s : State) (x : Int) (rest : List OutputAnswer), s.pc + 2 ≤ s.cfg.wordMax →
    resolveValue s a = .ok x →
    (s.output.script = .done :: rest → exec (.output a h) s =
      .next { s with pc := s.pc + 2, output := ⟨rest, s.output.delivered ++ [x]⟩ }) ∧
    (s.output.script = [] → exec (.output a h) s =
      .next { s with pc := s.pc + 2, output := ⟨[], s.output.delivered ++ [x]⟩ }) ∧
    (s.output.script = .stall :: rest → exec (.output a h) s = .next { s with output := ⟨rest, s.output.delivered⟩ })

/-- R130: JT has opcode 5, two Consumed arguments and nine canonical words; with both arguments resolved, whether or not the
jump is taken, the program counter becomes `b` if `a` is not 0, negative values of `a` included, else `pc + 3`, and nothing
else changes; it faults in the common phases only. -/
def Obligations.JumpIfTrueGoesToTarget : Prop :=
  ∀ (a b : Arg) (h : Nat),
    (Instr.jumpIfTrue a b h).word % 100 = 5 ∧ (Instr.jumpIfTrue a b h).args = [(.consumed, a), (.consumed, b)] ∧
    (Instr.jumpIfTrue a b 0).word ∈ ([5, 105, 205, 1005, 1105, 1205, 2005, 2105, 2205] : List Int) ∧
    ∀ s : State,
      (s.cfg.wordMax < s.pc + 3 →
        exec (.jumpIfTrue a b h) s = .next { s with status := .faulted (.overflow (s.pc + 3)) }) ∧
      (s.pc + 3 ≤ s.cfg.wordMax →
        (∀ c, resolveValue s a = .error c → exec (.jumpIfTrue a b h) s = .next { s with status := .faulted c }) ∧
        (∀ x c, resolveValue s a = .ok x → resolveValue s b = .error c →
          exec (.jumpIfTrue a b h) s = .next { s with status := .faulted c }) ∧
        (∀ x y, resolveValue s a = .ok x → resolveValue s b = .ok y → x ≠ 0 →
          exec (.jumpIfTrue a b h) s = .next { s with pc := y }) ∧
        (∀ y, resolveValue s a = .ok 0 → resolveValue s b = .ok y →
          exec (.jumpIfTrue a b h) s = .next { s with pc := s.pc + 3 }))

/-- R131: JF has opcode 6, two Consumed arguments and nine canonical words; with both arguments resolved, whether or not the
jump is taken, the program counter becomes `b` if `a` is 0, else `pc + 3`, and nothing else changes; it faults in the common
phases only. -/
def Obligations.JumpIfFalseGoesToTarget : Prop :=
  ∀ (a b : Arg) (h : Nat),
    (Instr.jumpIfFalse a b h).word % 100 = 6 ∧ (Instr.jumpIfFalse a b h).args = [(.consumed, a), (.consumed, b)] ∧
    (Instr.jumpIfFalse a b 0).word ∈ ([6, 106, 206, 1006, 1106, 1206, 2006, 2106, 2206] : List Int) ∧
    ∀ s : State,
      (s.cfg.wordMax < s.pc + 3 →
        exec (.jumpIfFalse a b h) s = .next { s with status := .faulted (.overflow (s.pc + 3)) }) ∧
      (s.pc + 3 ≤ s.cfg.wordMax →
        (∀ c, resolveValue s a = .error c → exec (.jumpIfFalse a b h) s = .next { s with status := .faulted c }) ∧
        (∀ x c, resolveValue s a = .ok x → resolveValue s b = .error c →
          exec (.jumpIfFalse a b h) s = .next { s with status := .faulted c }) ∧
        (∀ y, resolveValue s a = .ok 0 → resolveValue s b = .ok y →
          exec (.jumpIfFalse a b h) s = .next { s with pc := y }) ∧
        (∀ x y, resolveValue s a = .ok x → resolveValue s b = .ok y → x ≠ 0 →
          exec (.jumpIfFalse a b h) s = .next { s with pc := s.pc + 3 }))

/-- R150 (decision D2 for the overflow): ARB adds its value, resolved with the old base, to `rb` and passes to `pc + 2`; a
sum that is not a word faults with Overflow and leaves `rb` unchanged. -/
def Obligations.AdjustRelativeBaseAddsToBase : Prop :=
  ∀ (a : Arg) (h : Nat) (s : State) (x : Int), s.pc + 2 ≤ s.cfg.wordMax → resolveValue s a = .ok x →
    (s.cfg.isWord (s.rb + x) = true → exec (.adjustRelativeBase a h) s =
      .next { s with rb := s.rb + x, pc := s.pc + 2 }) ∧
    (s.cfg.isWord (s.rb + x) = false → exec (.adjustRelativeBase a h) s =
      .next { s with status := .faulted (.overflow (s.rb + x)) })

/-- R160 (decision D10 for `pc`): HLT makes the engine Halted and passes to `pc + 1`, and changes nothing else; the run has
then ended, and ended well (R161). -/
def Obligations.HaltEndsTheRun : Prop :=
  ∀ (h : Nat) (s : State), s.pc + 1 ≤ s.cfg.wordMax → ∃ t,
    exec (.halt h) s = .next t ∧ t = { s with status := .halted, pc := s.pc + 1 } ∧ t.ended ∧ t.endedWell

/-! ### Frames -/

/-- R49, R110, R111, R140, R141, R172: ADD, MUL, LT and EQ leave the width, the base, the ports and every cell but their
target as they were, and the status too unless they fault, when they change nothing else at all. -/
def Obligations.StoringInstructionsFrame : Prop :=
  ∀ (i : Instr) (a b dest : Arg) (h : Nat) (s t : State),
    (i = .add a b dest h ∨ i = .mul a b dest h ∨ i = .lessThan a b dest h ∨ i = .equals a b dest h) →
    exec i s = .next t →
      t.cfg = s.cfg ∧ t.rb = s.rb ∧ t.input = s.input ∧ t.output = s.output ∧
      (t.status = s.status ∨ ∃ c, t = { s with status := .faulted c }) ∧
      ∀ k : Nat, resolveTarget s dest i.word 2 ≠ .ok (k : Int) → t.mem.read k = s.mem.read k

/-- R49, R120, R172: IN leaves the width, the base, the output port and every cell but its target as they were, and the
status too unless it faults, when it changes nothing else at all; it consumes at most one value. -/
def Obligations.InputFrame : Prop :=
  ∀ (dest : Arg) (h : Nat) (s t : State), exec (.input dest h) s = .next t →
    t.cfg = s.cfg ∧ t.rb = s.rb ∧ t.output = s.output ∧
    (t.status = s.status ∨ ∃ c, t = { s with status := .faulted c }) ∧
    (t.input.consumed = s.input.consumed ∨ ∃ v, t.input.consumed = s.input.consumed ++ [v]) ∧
    ∀ k : Nat, resolveTarget s dest (Instr.input dest h).word 0 ≠ .ok (k : Int) → t.mem.read k = s.mem.read k

/-- R49, R121, R130, R131, R150, R160, R172: OUT, JT, JF, ARB and HLT leave all of memory as it was; only ARB changes `rb`,
only OUT the output port, none the input port, and only HLT and a fault the status. -/
def Obligations.NonStoringInstructionsFrame : Prop :=
  ∀ (i : Instr) (a b : Arg) (h : Nat) (s t : State), exec i s = .next t →
    (i = .output a h ∨ i = .jumpIfTrue a b h ∨ i = .jumpIfFalse a b h ∨ i = .adjustRelativeBase a h ∨ i = .halt h) →
      (∀ k : Nat, t.mem.read k = s.mem.read k) ∧ t.mem = s.mem ∧ t.cfg = s.cfg ∧ t.input = s.input ∧
      (i ≠ .adjustRelativeBase a h → t.rb = s.rb) ∧ (i ≠ .output a h → t.output = s.output) ∧
      (t.status = s.status ∨ (i = .halt h ∧ t.status = .halted) ∨ ∃ c, t = { s with status := .faulted c })

/-! ### The step -/

/-- R90, R92: if the words from the program counter on decode to an instruction, a step of a Running engine is that
instruction's meaning at that state; nothing is added around it. -/
def Obligations.StepRunsDecodedInstruction : Prop :=
  ∀ (s : State) (ws rest : List Int) (i : Instr), s.status = .running → 0 ≤ s.pc →
    (∀ (k : Nat) (v : Int), ws[k]? = some v → s.mem.read (s.pc + k).toNat = v) → decode ws = .ok (i, rest) →
    step s = exec i s

/-- R92 (decision D11): a Running engine whose program counter is negative faults with NegativeAddress(pc) at the fetch. -/
def Obligations.NegativePcFaultsAtFetch : Prop :=
  ∀ s : State, s.status = .running → s.pc < 0 → step s = .next { s with status := .faulted (.negativeAddress s.pc) }

/-- R99, R29 (c) (decision D13): from a Halted or Faulted engine a `step()` and any number of them change nothing, and
`run()` returns it as it is. -/
def Obligations.TerminalStatusIsFinal : Prop :=
  ∀ s : State, s.status ≠ .running → step s = .next s ∧ (∀ n, runFor n s = s) ∧ RunReturns s s

/-- R91, R172 (log entry [6]): a step always ends in a next state; no step is refused, and every fatal condition is a next
state whose status is Faulted. -/
def Obligations.EveryStepAnswersNextState : Prop :=
  ∀ s : State, ∃ t, step s = .next t

/-- R29 (a): a step from a state whose memory is canonical and whose cells and registers are words leads to such a state. -/
def Obligations.StepKeepsStateWellFormed : Prop :=
  ∀ s t : State, s.wf = true → step s = .next t → t.wf = true

/-- R91 (b), R172 (decision D7): a step that faults changes the status and nothing else, whatever the fault and the
instruction. -/
def Obligations.FaultIsPrecise : Prop :=
  ∀ (s t : State) (c : Cause), s.status = .running → step s = .next t → t.status = .faulted c →
    t = { s with status := .faulted c }

/-- R171 (decisions D2, D4, D8, D9, D14; log entry [10] for the datum that is no word): what a fault records is what the spec's
table of causes says, whatever state the engine was in: the fetched word and why it is illegal, with the least bad mode
digit of the arguments there are; the negative address, which is `pc` or the address an argument names; the integer that is no
word, which is the end of the instruction, the address of a Relative argument, the sum or product of the two values of ADD
or MUL or the new base of ARB; or the `pc` of an Input instruction whose port answers `fail`. -/
def Obligations.FaultRecordsItsCause : Prop :=
  ∀ (s t : State) (c : Cause), s.status = .running → step s = .next t → t.status = .faulted c →
    match c with
    | .illegalOpcode w => 0 ≤ s.pc ∧ w = s.mem.read s.pc.toNat ∧
        (w < 0 ∨ w % 100 ∉ ([1, 2, 3, 4, 5, 6, 7, 8, 9, 99] : List Int))
    | .illegalMode w n => 0 ≤ s.pc ∧ w = s.mem.read s.pc.toNat ∧ 0 ≤ w ∧
        n < (if w % 100 ∈ ([1, 2, 7, 8] : List Int) then 3 else if w % 100 ∈ ([5, 6] : List Int) then 2
          else if w % 100 ∈ ([3, 4, 9] : List Int) then 1 else 0) ∧
        3 ≤ w / 10 ^ (n + 2) % 10 ∧ ∀ m, m < n → w / 10 ^ (m + 2) % 10 ≤ 2
    | .immediateWriteTarget w n => 0 ≤ s.pc ∧ w = s.mem.read s.pc.toNat ∧ w / 10 ^ (n + 2) % 10 = 1 ∧
        ((n = 2 ∧ w % 100 ∈ ([1, 2, 7, 8] : List Int)) ∨ (n = 0 ∧ w % 100 = 3))
    | .negativeAddress a => a < 0 ∧ (a = s.pc ∨ ∃ (i : Instr) (n : Nat) (k : ArgKind) (x : Arg),
        fetchDecode s = .ok i ∧ i.args[n]? = some (k, x) ∧
        ((x.mode = .positional ∧ a = x.raw) ∨ (x.mode = .relative ∧ a = s.rb + x.raw)))
    | .overflow v => s.cfg.isWord v = false ∧ ∃ i, fetchDecode s = .ok i ∧
        ((v = s.pc + 1 + i.argc ∧ s.cfg.wordMax < v) ∨
          (∃ (n : Nat) (k : ArgKind) (x : Arg), i.args[n]? = some (k, x) ∧ x.mode = .relative ∧ v = s.rb + x.raw) ∨
          (∃ a b dest h x y, resolveValue s a = .ok x ∧ resolveValue s b = .ok y ∧
            ((i = .add a b dest h ∧ v = x + y) ∨ (i = .mul a b dest h ∧ v = x * y))) ∨
          (∃ a h x, i = .adjustRelativeBase a h ∧ resolveValue s a = .ok x ∧ v = s.rb + x))
    | .inputFailure p => p = s.pc ∧ ∃ dest h answer rest, fetchDecode s = .ok (.input dest h) ∧
        s.input.script = answer :: rest ∧ (answer = .fail ∨ ∃ v, answer = .value v ∧ s.cfg.isWord v = false)

/-- R22, R132 (h), R29 (d): a step leaves the program counter where it was or moves it past the instruction; only JT and JF
can do otherwise, and then it becomes the value of their second argument. -/
def Obligations.PcMovesByLengthOrJump : Prop :=
  ∀ (s t : State) (i : Instr), s.status = .running → fetchDecode s = .ok i → step s = .next t →
    t.pc = s.pc ∨ t.pc = s.pc + 1 + i.argc ∨
      ∃ a b h, (i = .jumpIfTrue a b h ∨ i = .jumpIfFalse a b h) ∧ resolveValue s b = .ok t.pc

/-- R23, R24: whatever the state, only an AdjustRelativeBase step changes `rb`, only a Halt step makes an engine Halted, and
no step changes the width. -/
def Obligations.OnlyArbWritesBaseOnlyHaltHalts : Prop :=
  ∀ s t : State, step s = .next t →
    t.cfg = s.cfg ∧
    (t.rb ≠ s.rb → s.status = .running ∧ ∃ a h, fetchDecode s = .ok (.adjustRelativeBase a h)) ∧
    (t.status = .halted → s.status ≠ .halted → s.status = .running ∧ ∃ h, fetchDecode s = .ok (.halt h))

/-! ### Ports -/

/-- R33, R91 (b) (log entry [12] for the script): only an Input step changes the input port and only an Output step the output
port; a step that faults changes neither, so that a step that ends in InputFailure leaves the failing answer in the
environment's script, which is the model's choice [12]; and a reset consumes and delivers nothing. -/
def Obligations.OnlyInputAndOutputUsePorts : Prop :=
  (∀ s t : State, step s = .next t →
    (t.input ≠ s.input → s.status = .running ∧ ∃ dest h, fetchDecode s = .ok (.input dest h)) ∧
    (t.output ≠ s.output → s.status = .running ∧ ∃ a h, fetchDecode s = .ok (.output a h)) ∧
    (∀ c, t.status = .faulted c → t.input = s.input ∧ t.output = s.output)) ∧
  (∀ (c : Config) (program : List Int) (ins : List InputAnswer) (outs : List OutputAnswer),
    (State.load c program ins outs).input.consumed = [] ∧ (State.load c program ins outs).output.delivered = [])

/-- R98 (decision D14; log entries [3], [5] for the script): an Input or Output step that stalls leaves memory, registers,
status and what has been consumed and delivered as they were, so the same instruction is fetched and decoded by the next
step; with an input script that is used up nothing at all changes. -/
def Obligations.StalledStepIsRetried : Prop :=
  ∀ s : State, s.status = .running →
    (∀ (dest : Arg) (h : Nat) (d : Int), fetchDecode s = .ok (.input dest h) → s.pc + 2 ≤ s.cfg.wordMax →
      resolveTarget s dest (Instr.input dest h).word 0 = .ok d → requestInput s = .stall →
      ∃ t, step s = .next t ∧ t.mem = s.mem ∧ t.pc = s.pc ∧ t.rb = s.rb ∧ t.status = s.status ∧ t.output = s.output ∧
        t.input.consumed = s.input.consumed ∧ fetchDecode t = .ok (.input dest h) ∧ (s.input.script = [] → t = s)) ∧
    (∀ (a : Arg) (h : Nat) (x : Int), fetchDecode s = .ok (.output a h) → s.pc + 2 ≤ s.cfg.wordMax →
      resolveValue s a = .ok x → deliverOutput s = .stall →
      ∃ t, step s = .next t ∧ t.mem = s.mem ∧ t.pc = s.pc ∧ t.rb = s.rb ∧ t.status = s.status ∧ t.input = s.input ∧
        t.output.delivered = s.output.delivered ∧ fetchDecode t = .ok (.output a h))

/-- R31, R122 (log entry [3] for the script): in any number of steps the values consumed, followed by those the environment
has still to supply, stay the same sequence: values are consumed in the order they are held, none lost, none twice. -/
def Obligations.InputValuesAreConsumedInOrder : Prop :=
  ∀ (n : Nat) (s : State),
    (runFor n s).input.consumed ++
        (runFor n s).input.script.filterMap (fun x => match x with | .value v => some v | _ => none) =
      s.input.consumed ++ s.input.script.filterMap (fun x => match x with | .value v => some v | _ => none)

/-- R32, R122: a step delivers nothing, or it is an Output step and delivers the value of its argument after all those
delivered before; so what has been delivered is never taken back or reordered in any number of steps. -/
def Obligations.OutputsAreDeliveredInOrder : Prop :=
  (∀ s t : State, step s = .next t →
    t.output.delivered = s.output.delivered ∨ ∃ a h x, s.status = .running ∧ fetchDecode s = .ok (.output a h) ∧
      resolveValue s a = .ok x ∧ t.output.delivered = s.output.delivered ++ [x]) ∧
  (∀ (n : Nat) (s : State), s.output.delivered <+: (runFor n s).output.delivered)

/-! ### Runs, self-modification, loading and the ring -/

/-- R100, R99 (decision D13 for the ended engine; log entry [13] for the relation): `run()` returns `t` exactly if some number
of steps leads to `t` and `t` has ended, with no limit on that number. It is the loop of R100: while the engine is Running
it returns what it returns after one step, and an ended engine it returns as it is. So it returns with the engine Halted or
Faulted, and with one result only. -/
def Obligations.RunReturnsWhenEnded : Prop :=
  (∀ s t : State, RunReturns s t ↔ ∃ n, runFor n s = t ∧ t.ended) ∧
  (∀ s t : State, s.status = .running → (RunReturns s t ↔ RunReturns (hostStep s) t)) ∧
  (∀ s t : State, s.ended → (RunReturns s t ↔ t = s)) ∧
  (∀ s t : State, RunReturns s t → t.status = .halted ∨ ∃ c, t.status = .faulted c) ∧
  (∀ s t u : State, RunReturns s t → RunReturns s u → t = u) ∧
  (∀ s : State, (∃ t, RunReturns s t) ↔ ∃ n, (runFor n s).ended)

/-- R100, R160, R161 (decision D7 for the fault, D10 for `pc`; log entry [13] for the relation): a `run()` that starts in a
Running engine and returns `t` has a last step, from a Running engine it has reached to `t`. If `t` is Faulted, that step
changed the status and nothing else; if not, it was a Halt, which made the engine Halted and passed to `pc + 1`. So a run that
returns and none of whose steps faults has ended well. -/
def Obligations.SafeRunEndsWell : Prop :=
  (∀ s t : State, s.status = .running → RunReturns s t →
    ∃ u, Reaches s u ∧ u.status = .running ∧ step u = .next t ∧
      (∀ c, t.status = .faulted c → t = { u with status := .faulted c }) ∧
      ((∀ c, t.status ≠ .faulted c) →
        ∃ h, fetchDecode u = .ok (.halt h) ∧ t = { u with status := .halted, pc := u.pc + 1 })) ∧
  (∀ s t : State, SafeRun s → RunReturns s t → t.endedWell)

/-- R51, R54, R210 (b) (decision D5 for LT, D14 for the datum of IN): ADD, MUL, LT, EQ and IN, whatever word `v` they store at
whatever address `d`. The next step fetches and decodes at `pc + 1 + argc` from the memory in which cell `d` holds `v` and
every other cell what it held before, instruction word and raw words alike, and runs what it decodes or faults as the decode
says. If `d` is `pc + 1 + argc`, `v` itself is the instruction word. -/
def Obligations.StoreIsSeenByNextFetch : Prop :=
  ∀ (s : State) (i : Instr) (dest : Arg) (v d : Int), s.status = .running → fetchDecode s = .ok i →
    s.pc + 1 + i.argc ≤ s.cfg.wordMax → s.cfg.isWord v = true → resolveTarget s dest i.word (i.argc - 1) = .ok d →
    ((∃ a b h x y, resolveValue s a = .ok x ∧ resolveValue s b = .ok y ∧
        ((i = .add a b dest h ∧ v = x + y) ∨ (i = .mul a b dest h ∧ v = x * y) ∨
          (i = .lessThan a b dest h ∧ v = if x < y then 1 else 0) ∨
          (i = .equals a b dest h ∧ v = if x = y then 1 else 0))) ∨
      ∃ h rest, i = .input dest h ∧ s.input.script = .value v :: rest) →
    let next := s.pc + 1 + i.argc
    let cell := fun a : Int => if a = d then v else s.mem.read a.toNat
    ∃ t, step s = .next t ∧ t.status = .running ∧ t.pc = next ∧ t.mem = s.mem.write d.toNat v ∧
      (∀ j, decodeWith (cell next) (fun n => cell (next + 1 + n)) = .ok j → step t = exec j t) ∧
      (∀ f, decodeWith (cell next) (fun n => cell (next + 1 + n)) = .error f →
        step t = .next { t with status := .faulted (causeOfDecode f) })

/-- Log entries [9], [11]: the instruction the decoder reads from a bit string of the opcode table is the instruction the
next step runs once the string is stored at the program counter. -/
def Obligations.TableWordRunsNext : Prop :=
  ∀ (s : State) (nbits w : Nat) (i : Instr), 0 ≤ s.pc → decodeTableWord nbits w = some i →
    step (s.withFetchWord nbits w) = exec i (s.withFetchWord nbits w)

/-- R187 (log entry [14]): a step of engine `i` of a ring of two or more changes engine `i` by its own step and appends what
it delivered to the queue of the next engine, and to the result queue if it is the last; every other engine is unchanged. -/
def Obligations.RingStepMovesOutputs : Prop :=
  ∀ (r : Ring) (i : Nat) (s : State), 2 ≤ r.engines.length → r.engines[i]? = some s →
    (r.stepAt i).engines.length = r.engines.length ∧
    (r.stepAt i).engines[i]? = some (hostStep s) ∧
    (∀ u, r.engines[(i + 1) % r.engines.length]? = some u →
      (r.stepAt i).engines[(i + 1) % r.engines.length]? =
        some { u with input := ⟨u.input.script ++ (newOutputs s (hostStep s)).map .value, u.input.consumed⟩ }) ∧
    (∀ j, j ≠ i → j ≠ (i + 1) % r.engines.length → (r.stepAt i).engines[j]? = r.engines[j]?) ∧
    (r.stepAt i).results =
      (if i + 1 = r.engines.length then r.results ++ newOutputs s (hostStep s) else r.results)
end

