-- ==== Sys2Proof/Laws/Decode.lean ====
section
/-!
SUPPORT. The laws of the decimal fields (R61, R63, R67) and what the decoder of each format answers.
-/

namespace Sys2Proof

theorem Mode.digit_le (m : Mode) : m.digit ≤ 2 := by cases m <;> decide

@[simp] theorem modeOfDigit_digit (m : Mode) : modeOfDigit m.digit = some m := by cases m <;> rfl

theorem modeOfDigit_eq_some (d : Nat) (m : Mode) : modeOfDigit d = some m ↔ d = m.digit := by
  constructor
  · intro h; unfold modeOfDigit at h; split at h <;> cases h <;> rfl
  · rintro rfl; exact modeOfDigit_digit m

theorem modeOfDigit_eq_none (d : Nat) : modeOfDigit d = none ↔ 3 ≤ d := by
  unfold modeOfDigit; split <;> simp_all; omega

/-- A mode digit 0, 1 or 2 gives its mode (R63). -/
theorem modeOf_eq_ok (w n : Nat) (m : Mode) : modeOf w n = .ok m ↔ modeDigit w n = m.digit := by
  rw [← modeOfDigit_eq_some, modeOf]
  cases modeOfDigit (modeDigit w n) <;> simp

/-- A mode digit 3 to 9 faults (R67). -/
theorem modeOf_eq_error (w n : Nat) (f : DecodeFault) :
    modeOf w n = .error f ↔ 3 ≤ modeDigit w n ∧ f = .illegalMode w n := by
  rw [← modeOfDigit_eq_none, modeOf]
  cases modeOfDigit (modeDigit w n) <;> simp [eq_comm]

theorem modeDigit_lt (w n : Nat) : modeDigit w n < 10 := Nat.mod_lt _ (by decide)

theorem decodeF1_eq_ok (mk : Arg → Nat → Instr) (w : Nat) (raw : Nat → Int) (i : Instr) :
    decodeF1 mk w raw = .ok i ↔ ∃ m0 : Mode, modeDigit w 0 = m0.digit ∧ i = mk ⟨m0, raw 0⟩ (w / 10 ^ 3) := by
  simp only [decodeF1]
  cases h0 : modeOf w 0 with
  | error f =>
    have := (modeOf_eq_error _ _ _).mp h0
    simp only [bind, Except.bind, reduceCtorEq, false_iff, not_exists, not_and]
    intro m hm; have := m.digit_le; omega
  | ok m =>
    rw [modeOf_eq_ok] at h0
    simp only [bind, Except.bind, pure, Except.pure, Except.ok.injEq]
    constructor
    · rintro rfl; exact ⟨m, h0, rfl⟩
    · rintro ⟨m', h', rfl⟩
      have : m = m' := by cases m <;> cases m' <;> simp_all [Mode.digit]
      rw [this]

theorem decodeF2_eq_ok (mk : Arg → Arg → Nat → Instr) (w : Nat) (raw : Nat → Int) (i : Instr) :
    decodeF2 mk w raw = .ok i ↔ ∃ m0 m1 : Mode, modeDigit w 0 = m0.digit ∧ modeDigit w 1 = m1.digit ∧
      i = mk ⟨m0, raw 0⟩ ⟨m1, raw 1⟩ (w / 10 ^ 4) := by
  simp only [← modeOf_eq_ok, decodeF2]
  cases modeOf w 0 <;> cases modeOf w 1 <;> simp [bind, Except.bind, pure, Except.pure, eq_comm]

theorem decodeF3_eq_ok (mk : Arg → Arg → Arg → Nat → Instr) (w : Nat) (raw : Nat → Int) (i : Instr) :
    decodeF3 mk w raw = .ok i ↔ ∃ m0 m1 m2 : Mode, modeDigit w 0 = m0.digit ∧ modeDigit w 1 = m1.digit ∧
      modeDigit w 2 = m2.digit ∧ i = mk ⟨m0, raw 0⟩ ⟨m1, raw 1⟩ ⟨m2, raw 2⟩ (w / 10 ^ 5) := by
  simp only [← modeOf_eq_ok, decodeF3]
  cases modeOf w 0 <;> cases modeOf w 1 <;> cases modeOf w 2 <;> simp [bind, Except.bind, pure, Except.pure, eq_comm]

end Sys2Proof
end

