-- ==== Sys2Proof/Laws/Memory.lean ====
section
/-!
SUPPORT. The laws of the Memory Store (R40 to R43): a read after a write, the canonical form and that every operation keeps
it, and that the canonical form is unique.
-/

namespace Sys2Proof.Machine

@[simp] theorem Memory.read_nil (a : Nat) : Memory.read [] a = 0 := rfl

theorem Memory.read_filter_ne (m : Memory) (a b : Nat) (h : b ≠ a) :
    Memory.read (m.filter (·.1 != a)) b = m.read b := by
  induction m with
  | nil => rfl
  | cons cell rest ih =>
    obtain ⟨k, v⟩ := cell
    by_cases hk : k = a
    · subst hk; simp [Memory.read, ih, h.symm]
    · simp [hk, Memory.read, ih]

theorem Memory.read_filter_self (m : Memory) (a : Nat) : Memory.read (m.filter (·.1 != a)) a = 0 := by
  induction m with
  | nil => rfl
  | cons cell rest ih =>
    obtain ⟨k, v⟩ := cell
    by_cases hk : k = a
    · subst hk; simp [ih]
    · simp [hk, Memory.read, ih]

theorem Memory.read_insertCell_ne (m : Memory) (a b : Nat) (v : Int) (h : b ≠ a) :
    Memory.read (Memory.insertCell a v m) b = m.read b := by
  induction m with
  | nil => simp [Memory.insertCell, Memory.read, h.symm]
  | cons cell rest ih =>
    obtain ⟨k, u⟩ := cell
    by_cases hk : a < k
    · simp [Memory.insertCell, hk, Memory.read, h.symm]
    · simp [Memory.insertCell, hk, Memory.read, ih]

theorem Memory.read_insertCell_self (m : Memory) (a : Nat) (v : Int) (h : ∀ cell ∈ m, cell.1 ≠ a) :
    Memory.read (Memory.insertCell a v m) a = v := by
  induction m with
  | nil => simp [Memory.insertCell, Memory.read]
  | cons cell rest ih =>
    obtain ⟨k, u⟩ := cell
    have hk : k ≠ a := h (k, u) (by simp)
    by_cases hl : a < k
    · simp [Memory.insertCell, hl, Memory.read]
    · simp [Memory.insertCell, hl, Memory.read, hk, ih fun c hc => h c (by simp [hc])]

/-- A read after a write to the same address gives the word written (R42). -/
@[simp] theorem Memory.read_write_self (m : Memory) (a : Nat) (v : Int) : (m.write a v).read a = v := by
  unfold Memory.write
  split
  · rename_i h; rw [h, Memory.read_filter_self]
  · exact Memory.read_insertCell_self _ a v fun cell hc => by simpa using (List.mem_filter.mp hc).2

/-- A write leaves every other cell as it was (R42). -/
theorem Memory.read_write_ne (m : Memory) (a b : Nat) (v : Int) (h : b ≠ a) : (m.write a v).read b = m.read b := by
  unfold Memory.write
  split
  · exact Memory.read_filter_ne m a b h
  · rw [Memory.read_insertCell_ne _ a b v h, Memory.read_filter_ne m a b h]

/-- An address no cell is listed at reads 0 (R43). -/
theorem Memory.read_eq_zero_of_unlisted (m : Memory) (a : Nat) (h : ∀ cell ∈ m, cell.1 ≠ a) : m.read a = 0 := by
  induction m with
  | nil => rfl
  | cons cell rest ih =>
    obtain ⟨k, v⟩ := cell
    have hk : k ≠ a := h (k, v) (by simp)
    simp [Memory.read, hk, ih fun c hc => h c (by simp [hc])]

/-- What is read is a listed word or 0. -/
theorem Memory.read_mem_or_zero (m : Memory) (a : Nat) : (a, m.read a) ∈ m ∨ m.read a = 0 := by
  induction m with
  | nil => exact .inr rfl
  | cons cell rest ih =>
    obtain ⟨k, v⟩ := cell
    by_cases hk : k = a
    · subst hk; simp [Memory.read]
    · simp only [Memory.read, hk, if_false, List.mem_cons]
      exact ih.imp .inr id

theorem Memory.rising_iff (m : Memory) : m.rising = true ↔ m.Pairwise (·.1 < ·.1) := by
  induction m with
  | nil => simp [Memory.rising]
  | cons cell rest ih =>
    obtain ⟨a, u⟩ := cell
    cases rest with
    | nil => simp [Memory.rising]
    | cons cell2 rest =>
      obtain ⟨b, v⟩ := cell2
      rw [Memory.rising, Bool.and_eq_true, ih, decide_eq_true_eq, List.pairwise_cons (a := (a, u))]
      constructor
      · rintro ⟨hab, hp⟩
        refine ⟨fun x hx => ?_, hp⟩
        rcases List.mem_cons.mp hx with rfl | hx
        · exact hab
        · exact lt_trans hab ((List.pairwise_cons.mp hp).1 x hx)
      · exact fun ⟨h, hp⟩ => ⟨h (b, v) (by simp), hp⟩

theorem Memory.wf_iff (m : Memory) : m.wf = true ↔ m.Pairwise (·.1 < ·.1) ∧ ∀ cell ∈ m, cell.2 ≠ 0 := by
  simp [Memory.wf, Memory.rising_iff]

theorem Memory.mem_insertCell (m : Memory) (a : Nat) (v : Int) (x : Nat × Int) :
    x ∈ Memory.insertCell a v m ↔ x = (a, v) ∨ x ∈ m := by
  induction m with
  | nil => simp [Memory.insertCell]
  | cons cell rest ih =>
    obtain ⟨k, u⟩ := cell
    by_cases hk : a < k
    · simp [Memory.insertCell, hk]
    · simp only [Memory.insertCell, hk, if_false, List.mem_cons, ih]; tauto

theorem Memory.pairwise_insertCell (m : Memory) (a : Nat) (v : Int) (hm : m.Pairwise (·.1 < ·.1))
    (ha : ∀ cell ∈ m, cell.1 ≠ a) : (Memory.insertCell a v m).Pairwise (·.1 < ·.1) := by
  induction m with
  | nil => simp [Memory.insertCell]
  | cons cell rest ih =>
    obtain ⟨k, u⟩ := cell
    obtain ⟨hk, hr⟩ := List.pairwise_cons.mp hm
    by_cases hl : a < k
    · simp only [Memory.insertCell, hl, if_true, List.pairwise_cons]
      refine ⟨fun x hx => ?_, hk, hr⟩
      rcases List.mem_cons.mp hx with rfl | hx
      · exact hl
      · exact lt_trans hl (hk x hx)
    · simp only [Memory.insertCell, hl, if_false, List.pairwise_cons]
      refine ⟨fun x hx => ?_, ih hr fun c hc => ha c (by simp [hc])⟩
      have hne : k ≠ a := ha (k, u) (by simp)
      rcases (Memory.mem_insertCell rest a v x).mp hx with rfl | hx
      · show k < a; omega
      · exact hk x hx

/-- A cell listed after a write was listed before, or is the one written. -/
theorem Memory.mem_write (m : Memory) (a : Nat) (v : Int) (x : Nat × Int) (hx : x ∈ m.write a v) :
    x = (a, v) ∨ x ∈ m := by
  unfold Memory.write at hx
  split at hx
  · exact .inr (List.mem_filter.mp hx).1
  · exact ((Memory.mem_insertCell _ a v x).mp hx).imp id fun h => (List.mem_filter.mp h).1

/-- A write keeps the canonical form. -/
theorem Memory.wf_write (m : Memory) (a : Nat) (v : Int) (h : m.wf = true) : (m.write a v).wf = true := by
  rw [Memory.wf_iff] at h ⊢
  have hp : (m.filter (·.1 != a)).Pairwise (·.1 < ·.1) := h.1.filter _
  unfold Memory.write
  split
  · exact ⟨hp, fun c hc => h.2 c (List.mem_filter.mp hc).1⟩
  · rename_i hv
    refine ⟨Memory.pairwise_insertCell _ a v hp fun c hc => by simpa using (List.mem_filter.mp hc).2, fun c hc => ?_⟩
    rcases (Memory.mem_insertCell _ a v c).mp hc with rfl | hc
    · exact hv
    · exact h.2 c (List.mem_filter.mp hc).1

/-- What is read after storing a list of words (R74, R201). -/
theorem Memory.read_writeWords (ws : List Int) (m : Memory) (a b : Nat) :
    (m.writeWords a ws).read b =
      if b < a then m.read b else if b < a + ws.length then ws.getD (b - a) 0 else m.read b := by
  induction ws generalizing m a with
  | nil =>
    simp only [Memory.writeWords, List.length_nil]
    split_ifs <;> first | rfl | omega
  | cons v vs ih =>
    rw [Memory.writeWords, ih]
    rcases lt_trichotomy b a with h | h | h
    · rw [if_pos (by omega), if_pos h, Memory.read_write_ne _ _ _ _ (by omega)]
    · subst h; simp
    · rw [Memory.read_write_ne _ _ _ _ (by omega), show b - a = (b - (a + 1)) + 1 by omega]
      simp only [List.length_cons, List.getD_cons_succ]
      split_ifs <;> first | rfl | omega

/-- A cell listed after storing a list of words was listed before, or is one of those written. -/
theorem Memory.mem_writeWords (ws : List Int) (m : Memory) (a : Nat) (x : Nat × Int) (h : x ∈ m.writeWords a ws) :
    x ∈ m ∨ (a ≤ x.1 ∧ x.1 < a + ws.length ∧ x.2 ∈ ws) := by
  induction ws generalizing m a with
  | nil => exact .inl h
  | cons v vs ih =>
    rcases ih _ _ h with h | ⟨h1, h2, h3⟩
    · rcases Memory.mem_write _ _ _ _ h with rfl | h
      · right; simp
      · exact .inl h
    · exact .inr ⟨by omega, by rw [List.length_cons]; omega, by simp [h3]⟩

/-- Storing a list of words keeps the canonical form. -/
theorem Memory.wf_writeWords (ws : List Int) (m : Memory) (a : Nat) (h : m.wf = true) :
    (m.writeWords a ws).wf = true := by
  induction ws generalizing m a with
  | nil => exact h
  | cons v vs ih => exact ih _ _ (Memory.wf_write m a v h)

theorem State.reset_mem_wf : State.reset.mem.wf = true := rfl

/-- What `memWrite` answers, in full (R42). -/
theorem memWrite_eq (m : Memory) (addr : Int) (v : Int) :
    memWrite m addr v = if addr < 0 then .error (.negativeAddress addr) else .ok (m.write addr.toNat v) := by
  unfold memWrite checkAddress; split <;> rfl

/-- What `memRead` answers, in full (R41). -/
theorem memRead_eq (m : Memory) (addr : Int) :
    memRead m addr = if addr < 0 then .error (.negativeAddress addr) else .ok (m.read addr.toNat) := by
  unfold memRead checkAddress; split <;> rfl

end Sys2Proof.Machine
end

