-- ==== Sys2Proof/Laws/State.lean ====
section
/-!
SUPPORT. One lemma per field per update of State, true by definition: no later proof unfolds a record update.
-/

namespace Sys2Proof.Machine

@[simp] theorem State.setMem_cfg (s : State) (m : Memory) : (s.setMem m).cfg = s.cfg := rfl
@[simp] theorem State.setMem_mem (s : State) (m : Memory) : (s.setMem m).mem = m := rfl
@[simp] theorem State.setMem_pc (s : State) (m : Memory) : (s.setMem m).pc = s.pc := rfl
@[simp] theorem State.setMem_rb (s : State) (m : Memory) : (s.setMem m).rb = s.rb := rfl
@[simp] theorem State.setMem_status (s : State) (m : Memory) : (s.setMem m).status = s.status := rfl
@[simp] theorem State.setMem_input (s : State) (m : Memory) : (s.setMem m).input = s.input := rfl
@[simp] theorem State.setMem_output (s : State) (m : Memory) : (s.setMem m).output = s.output := rfl

@[simp] theorem State.setPc_cfg (s : State) (v : Int) : (s.setPc v).cfg = s.cfg := rfl
@[simp] theorem State.setPc_mem (s : State) (v : Int) : (s.setPc v).mem = s.mem := rfl
@[simp] theorem State.setPc_pc (s : State) (v : Int) : (s.setPc v).pc = v := rfl
@[simp] theorem State.setPc_rb (s : State) (v : Int) : (s.setPc v).rb = s.rb := rfl
@[simp] theorem State.setPc_status (s : State) (v : Int) : (s.setPc v).status = s.status := rfl
@[simp] theorem State.setPc_input (s : State) (v : Int) : (s.setPc v).input = s.input := rfl
@[simp] theorem State.setPc_output (s : State) (v : Int) : (s.setPc v).output = s.output := rfl

@[simp] theorem State.setRb_cfg (s : State) (v : Int) : (s.setRb v).cfg = s.cfg := rfl
@[simp] theorem State.setRb_mem (s : State) (v : Int) : (s.setRb v).mem = s.mem := rfl
@[simp] theorem State.setRb_pc (s : State) (v : Int) : (s.setRb v).pc = s.pc := rfl
@[simp] theorem State.setRb_rb (s : State) (v : Int) : (s.setRb v).rb = v := rfl
@[simp] theorem State.setRb_status (s : State) (v : Int) : (s.setRb v).status = s.status := rfl
@[simp] theorem State.setRb_input (s : State) (v : Int) : (s.setRb v).input = s.input := rfl
@[simp] theorem State.setRb_output (s : State) (v : Int) : (s.setRb v).output = s.output := rfl

@[simp] theorem State.setStatus_cfg (s : State) (st : Status) : (s.setStatus st).cfg = s.cfg := rfl
@[simp] theorem State.setStatus_mem (s : State) (st : Status) : (s.setStatus st).mem = s.mem := rfl
@[simp] theorem State.setStatus_pc (s : State) (st : Status) : (s.setStatus st).pc = s.pc := rfl
@[simp] theorem State.setStatus_rb (s : State) (st : Status) : (s.setStatus st).rb = s.rb := rfl
@[simp] theorem State.setStatus_status (s : State) (st : Status) : (s.setStatus st).status = st := rfl
@[simp] theorem State.setStatus_input (s : State) (st : Status) : (s.setStatus st).input = s.input := rfl
@[simp] theorem State.setStatus_output (s : State) (st : Status) : (s.setStatus st).output = s.output := rfl

@[simp] theorem State.takeInput_cfg (s : State) (v : Int) : (s.takeInput v).cfg = s.cfg := rfl
@[simp] theorem State.takeInput_mem (s : State) (v : Int) : (s.takeInput v).mem = s.mem := rfl
@[simp] theorem State.takeInput_pc (s : State) (v : Int) : (s.takeInput v).pc = s.pc := rfl
@[simp] theorem State.takeInput_rb (s : State) (v : Int) : (s.takeInput v).rb = s.rb := rfl
@[simp] theorem State.takeInput_status (s : State) (v : Int) : (s.takeInput v).status = s.status := rfl
@[simp] theorem State.takeInput_input (s : State) (v : Int) : (s.takeInput v).input = ⟨s.input.script.tail, s.input.consumed ++ [v]⟩ := rfl
@[simp] theorem State.takeInput_output (s : State) (v : Int) : (s.takeInput v).output = s.output := rfl

@[simp] theorem State.waitInput_cfg (s : State) : (s.waitInput).cfg = s.cfg := rfl
@[simp] theorem State.waitInput_mem (s : State) : (s.waitInput).mem = s.mem := rfl
@[simp] theorem State.waitInput_pc (s : State) : (s.waitInput).pc = s.pc := rfl
@[simp] theorem State.waitInput_rb (s : State) : (s.waitInput).rb = s.rb := rfl
@[simp] theorem State.waitInput_status (s : State) : (s.waitInput).status = s.status := rfl
@[simp] theorem State.waitInput_input (s : State) : (s.waitInput).input = ⟨s.input.script.tail, s.input.consumed⟩ := rfl
@[simp] theorem State.waitInput_output (s : State) : (s.waitInput).output = s.output := rfl

@[simp] theorem State.putOutput_cfg (s : State) (v : Int) : (s.putOutput v).cfg = s.cfg := rfl
@[simp] theorem State.putOutput_mem (s : State) (v : Int) : (s.putOutput v).mem = s.mem := rfl
@[simp] theorem State.putOutput_pc (s : State) (v : Int) : (s.putOutput v).pc = s.pc := rfl
@[simp] theorem State.putOutput_rb (s : State) (v : Int) : (s.putOutput v).rb = s.rb := rfl
@[simp] theorem State.putOutput_status (s : State) (v : Int) : (s.putOutput v).status = s.status := rfl
@[simp] theorem State.putOutput_input (s : State) (v : Int) : (s.putOutput v).input = s.input := rfl
@[simp] theorem State.putOutput_output (s : State) (v : Int) : (s.putOutput v).output = ⟨s.output.script.tail, s.output.delivered ++ [v]⟩ := rfl

@[simp] theorem State.waitOutput_cfg (s : State) : (s.waitOutput).cfg = s.cfg := rfl
@[simp] theorem State.waitOutput_mem (s : State) : (s.waitOutput).mem = s.mem := rfl
@[simp] theorem State.waitOutput_pc (s : State) : (s.waitOutput).pc = s.pc := rfl
@[simp] theorem State.waitOutput_rb (s : State) : (s.waitOutput).rb = s.rb := rfl
@[simp] theorem State.waitOutput_status (s : State) : (s.waitOutput).status = s.status := rfl
@[simp] theorem State.waitOutput_input (s : State) : (s.waitOutput).input = s.input := rfl
@[simp] theorem State.waitOutput_output (s : State) : (s.waitOutput).output = ⟨s.output.script.tail, s.output.delivered⟩ := rfl

@[simp] theorem raise_cfg (s : State) (c : Cause) : (raise c s).cfg = s.cfg := rfl
@[simp] theorem raise_mem (s : State) (c : Cause) : (raise c s).mem = s.mem := rfl
@[simp] theorem raise_pc (s : State) (c : Cause) : (raise c s).pc = s.pc := rfl
@[simp] theorem raise_rb (s : State) (c : Cause) : (raise c s).rb = s.rb := rfl
@[simp] theorem raise_status (s : State) (c : Cause) : (raise c s).status = .faulted c := rfl
@[simp] theorem raise_input (s : State) (c : Cause) : (raise c s).input = s.input := rfl
@[simp] theorem raise_output (s : State) (c : Cause) : (raise c s).output = s.output := rfl

end Sys2Proof.Machine
end

