-- ==== Sys2Proof/Laws/Ops.lean ====
section
/-!
SUPPORT. One lemma per shared operation that says everything it can answer: the word check, the address check, the extent
check and the Argument Resolver.
-/

namespace Sys2Proof.Machine

/-! ### Sequencing -/

theorem bind_eq_ok {ε α β : Type} (x : Except ε α) (f : α → Except ε β) (r : β) :
    (x >>= f) = .ok r ↔ ∃ a, x = .ok a ∧ f a = .ok r := by
  cases x <;> simp [bind, Except.bind]

theorem bind_eq_error {ε α β : Type} (x : Except ε α) (f : α → Except ε β) (e : ε) :
    (x >>= f) = .error e ↔ x = .error e ∨ ∃ a, x = .ok a ∧ f a = .error e := by
  cases x <;> simp [bind, Except.bind]

@[simp] theorem ok_bind_eq {ε α β : Type} (a : α) (f : α → Except ε β) : ((Except.ok a : Except ε α) >>= f) = f a := rfl

@[simp] theorem error_bind_eq {ε α β : Type} (e : ε) (f : α → Except ε β) :
    ((Except.error e : Except ε α) >>= f) = .error e := rfl

@[simp] theorem finish_ok (s t : State) : finish s (.ok t) = .next t := rfl

@[simp] theorem finish_error (s : State) (c : Cause) : finish s (.error c) = .next (raise c s) := rfl

/-! ### The word range -/

theorem isWord_iff (c : Config) (v : Int) : c.isWord v = true ↔ c.wordMin ≤ v ∧ v ≤ c.wordMax := by
  simp [Config.isWord]

theorem wordMin_eq (c : Config) : c.wordMin = -c.wordMax - 1 := by
  unfold Config.wordMin Config.wordMax leastWord greatestWord; omega

/-- The range holds at least the 64-bit words (R5). -/
theorem wordMax_ge (c : Config) : 9223372036854775807 ≤ c.wordMax := by
  have h : 2 ^ 63 ≤ 2 ^ (c.wordBits - 1) := Nat.pow_le_pow_right (by decide) (by unfold Config.wordBits; omega)
  unfold Config.wordMax greatestWord
  have : (2 : Nat) ^ 63 = 9223372036854775808 := by norm_num
  omega

theorem isWord_zero (c : Config) : c.isWord 0 = true := by
  have := wordMax_ge c; have := wordMin_eq c; rw [isWord_iff]; omega

theorem isWord_one (c : Config) : c.isWord 1 = true := by
  have := wordMax_ge c; have := wordMin_eq c; rw [isWord_iff]; omega

theorem checkWord_eq_ok (c : Config) (v u : Int) : checkWord c v = .ok u ↔ c.isWord v = true ∧ u = v := by
  cases h : c.isWord v <;> simp [checkWord, h, eq_comm]

theorem checkWord_eq_error (c : Config) (v : Int) (e : Cause) :
    checkWord c v = .error e ↔ c.isWord v = false ∧ e = .overflow v := by
  cases h : c.isWord v <;> simp [checkWord, h, eq_comm]

/-! ### Addresses -/

theorem checkAddress_eq_ok (v : Int) (a : Nat) : checkAddress v = .ok a ↔ 0 ≤ v ∧ a = v.toNat := by
  unfold checkAddress; split
  · simp; omega
  · simp [eq_comm]; omega

theorem checkAddress_eq_error (v : Int) (e : Cause) : checkAddress v = .error e ↔ v < 0 ∧ e = .negativeAddress v := by
  unfold checkAddress; split <;> simp_all [eq_comm]

theorem memRead_eq_ok (m : Memory) (v u : Int) : memRead m v = .ok u ↔ 0 ≤ v ∧ u = m.read v.toNat := by
  rw [memRead_eq]; split
  · simp; omega
  · simp [eq_comm]; omega

theorem memRead_eq_error (m : Memory) (v : Int) (e : Cause) :
    memRead m v = .error e ↔ v < 0 ∧ e = .negativeAddress v := by
  rw [memRead_eq]; split <;> simp_all [eq_comm]

theorem targetAddress_eq_ok (v u : Int) : targetAddress v = .ok u ↔ 0 ≤ v ∧ u = v := by
  unfold targetAddress checkAddress; split
  · simp; omega
  · simp [pure, Except.pure, eq_comm]; omega

theorem targetAddress_eq_error (v : Int) (e : Cause) : targetAddress v = .error e ↔ v < 0 ∧ e = .negativeAddress v := by
  unfold targetAddress checkAddress; split <;> simp_all [pure, Except.pure, eq_comm]

/-! ### The extent check and the Argument Resolver -/

theorem fallThrough_eq_ok (s : State) (n : Nat) (v : Int) :
    fallThrough s n = .ok v ↔ s.pc + 1 + n ≤ s.cfg.wordMax ∧ v = s.pc + 1 + n := by
  unfold fallThrough; split
  · simp; omega
  · simp [eq_comm]; omega

theorem fallThrough_eq_error (s : State) (n : Nat) (e : Cause) :
    fallThrough s n = .error e ↔ s.cfg.wordMax < s.pc + 1 + n ∧ e = .overflow (s.pc + 1 + n) := by
  unfold fallThrough; split <;> simp_all [eq_comm]

/-- A resolved target is an address (R95). -/
theorem resolveTarget_nonneg (s : State) (x : Arg) (w : Int) (n : Nat) (t : Int) (h : resolveTarget s x w n = .ok t) :
    0 ≤ t := by
  unfold resolveTarget at h
  split at h
  · cases h
  · rw [targetAddress_eq_ok] at h; omega
  · obtain ⟨ea, -, h⟩ := (bind_eq_ok _ _ _).mp h
    rw [targetAddress_eq_ok] at h; omega

/-- A resolved target is a word, if the raw word is (R29 a). -/
theorem resolveTarget_isWord (s : State) (x : Arg) (w : Int) (n : Nat) (t : Int) (hx : s.cfg.isWord x.raw = true)
    (h : resolveTarget s x w n = .ok t) : s.cfg.isWord t = true := by
  unfold resolveTarget at h
  split at h
  · cases h
  · rw [targetAddress_eq_ok] at h; rw [h.2]; exact hx
  · obtain ⟨ea, he, h⟩ := (bind_eq_ok _ _ _).mp h
    rw [relativeAddress, checkWord_eq_ok] at he
    rw [targetAddress_eq_ok] at h; rw [h.2, he.2]; exact he.1

/-- The memory address that an argument names: its raw word in Positional mode, `rb + raw` in Relative mode (R63). -/
def NamesAddress (s : State) (x : Arg) (a : Int) : Prop :=
  (x.mode = .positional ∧ a = x.raw) ∨ (x.mode = .relative ∧ a = s.rb + x.raw)

/-- The faults of a Consumed argument (R94, R96). -/
theorem resolveValue_error (s : State) (x : Arg) (e : Cause) (h : resolveValue s x = .error e) :
    (∃ a, a < 0 ∧ NamesAddress s x a ∧ e = .negativeAddress a) ∨
      (x.mode = .relative ∧ s.cfg.isWord (s.rb + x.raw) = false ∧ e = .overflow (s.rb + x.raw)) := by
  unfold resolveValue at h
  split at h <;> rename_i hm
  · cases h
  · obtain ⟨h0, rfl⟩ := (memRead_eq_error _ _ _).mp h
    exact .inl ⟨_, h0, .inl ⟨hm, rfl⟩, rfl⟩
  · rcases (bind_eq_error _ _ _).mp h with h | ⟨ea, he, h⟩
    · exact .inr ⟨hm, (checkWord_eq_error _ _ _).mp h⟩
    · obtain ⟨-, rfl⟩ := (checkWord_eq_ok _ _ _).mp he
      obtain ⟨h0, rfl⟩ := (memRead_eq_error _ _ _).mp h
      exact .inl ⟨_, h0, .inr ⟨hm, rfl⟩, rfl⟩

/-- The faults of a Produced argument (R95, R96). -/
theorem resolveTarget_error (s : State) (x : Arg) (w : Int) (n : Nat) (e : Cause) (h : resolveTarget s x w n = .error e) :
    (x.mode = .immediate ∧ e = .immediateWriteTarget w n) ∨
      (∃ a, a < 0 ∧ NamesAddress s x a ∧ e = .negativeAddress a) ∨
      (x.mode = .relative ∧ s.cfg.isWord (s.rb + x.raw) = false ∧ e = .overflow (s.rb + x.raw)) := by
  unfold resolveTarget at h
  split at h <;> rename_i hm
  · exact .inl ⟨hm, by simpa [eq_comm] using h⟩
  · obtain ⟨h0, rfl⟩ := (targetAddress_eq_error _ _).mp h
    exact .inr (.inl ⟨_, h0, .inl ⟨hm, rfl⟩, rfl⟩)
  · rcases (bind_eq_error _ _ _).mp h with h | ⟨ea, he, h⟩
    · exact .inr (.inr ⟨hm, (checkWord_eq_error _ _ _).mp h⟩)
    · obtain ⟨-, rfl⟩ := (checkWord_eq_ok _ _ _).mp he
      obtain ⟨h0, rfl⟩ := (targetAddress_eq_error _ _).mp h
      exact .inr (.inl ⟨_, h0, .inr ⟨hm, rfl⟩, rfl⟩)

/-- What a memory whose cells are words reads is a word (R29 a). -/
theorem Memory.read_isWord (c : Config) (m : Memory) (h : ∀ cell ∈ m, c.isWord cell.2 = true) (a : Nat) :
    c.isWord (m.read a) = true := by
  rcases Memory.read_mem_or_zero m a with hm | h0
  · exact h _ hm
  · rw [h0]; exact isWord_zero c

/-- A resolved value is a word, if the raw word and every cell are (R29 a). -/
theorem resolveValue_isWord (s : State) (x : Arg) (v : Int) (hm : ∀ cell ∈ s.mem, s.cfg.isWord cell.2 = true)
    (hx : s.cfg.isWord x.raw = true) (h : resolveValue s x = .ok v) : s.cfg.isWord v = true := by
  unfold resolveValue at h
  split at h
  · cases h; exact hx
  · rw [memRead_eq_ok] at h; rw [h.2]; exact Memory.read_isWord _ _ hm _
  · obtain ⟨ea, -, h⟩ := (bind_eq_ok _ _ _).mp h
    rw [memRead_eq_ok] at h; rw [h.2]; exact Memory.read_isWord _ _ hm _

end Sys2Proof.Machine
end

