-- ==== Sys2Proof/Laws/Exec.lean ====
section
/-!
SUPPORT. What a meaning can do: one inversion lemma per shape, and `exec_effect`, which says once everything that running an
instruction can do to a state.
-/

namespace Sys2Proof.Machine

/-! ### The shapes -/

theorem storeBinary_eq_ok (f : Int → Int → Except Cause Int) (w : Int) (a b dest : Arg) (s t : State) :
    storeBinary f w a b dest s = .ok t ↔ ∃ x y d v, s.pc + 4 ≤ s.cfg.wordMax ∧ resolveValue s a = .ok x ∧
      resolveValue s b = .ok y ∧ resolveTarget s dest w 2 = .ok d ∧ f x y = .ok v ∧
      t = (s.setMem (s.mem.write d.toNat v)).setPc (s.pc + 4) := by
  simp only [storeBinary, bind_eq_ok, fallThrough_eq_ok, memWrite_eq]
  constructor
  · rintro ⟨n, ⟨hn, rfl⟩, x, hx, y, hy, d, hd, v, hv, m, hm, ht⟩
    rw [if_neg (not_lt.mpr (resolveTarget_nonneg _ _ _ _ _ hd))] at hm
    cases hm; cases ht
    exact ⟨x, y, d, v, by push_cast at hn; omega, hx, hy, hd, hv, by simp [add_assoc]⟩
  · rintro ⟨x, y, d, v, hn, hx, hy, hd, hv, rfl⟩
    refine ⟨_, ⟨by push_cast; omega, rfl⟩, x, hx, y, hy, d, hd, v, hv, _,
      if_neg (not_lt.mpr (resolveTarget_nonneg _ _ _ _ _ hd)), by simp [add_assoc, pure, Except.pure]⟩

theorem storeBinary_eq_error (f : Int → Int → Except Cause Int) (w : Int) (a b dest : Arg) (s : State) (c : Cause) :
    storeBinary f w a b dest s = .error c ↔
      (s.cfg.wordMax < s.pc + 4 ∧ c = .overflow (s.pc + 4)) ∨
      s.pc + 4 ≤ s.cfg.wordMax ∧ (resolveValue s a = .error c ∨ ∃ x, resolveValue s a = .ok x ∧
        (resolveValue s b = .error c ∨ ∃ y, resolveValue s b = .ok y ∧
          (resolveTarget s dest w 2 = .error c ∨ ∃ d, resolveTarget s dest w 2 = .ok d ∧ f x y = .error c))) := by
  have e : s.pc + 1 + ((3 : Nat) : Int) = s.pc + 4 := by push_cast; omega
  simp only [storeBinary, bind_eq_error, fallThrough_eq_error, fallThrough_eq_ok, memWrite_eq, e]
  constructor
  · rintro (h | ⟨n, ⟨hn, -⟩, h⟩)
    · exact .inl h
    refine .inr ⟨hn, ?_⟩
    rcases h with h | ⟨x, hx, h⟩
    · exact .inl h
    refine .inr ⟨x, hx, ?_⟩
    rcases h with h | ⟨y, hy, h⟩
    · exact .inl h
    refine .inr ⟨y, hy, ?_⟩
    rcases h with h | ⟨d, hd, h⟩
    · exact .inl h
    refine .inr ⟨d, hd, ?_⟩
    rcases h with h | ⟨v, -, h⟩
    · exact h
    · rw [if_neg (not_lt.mpr (resolveTarget_nonneg _ _ _ _ _ hd))] at h
      rcases h with h | ⟨m, -, h⟩ <;> cases h
  · rintro (h | ⟨hn, h⟩)
    · exact .inl h
    refine .inr ⟨_, ⟨hn, rfl⟩, ?_⟩
    rcases h with h | ⟨x, hx, h⟩
    · exact .inl h
    refine .inr ⟨x, hx, ?_⟩
    rcases h with h | ⟨y, hy, h⟩
    · exact .inl h
    refine .inr ⟨y, hy, ?_⟩
    rcases h with h | ⟨d, hd, h⟩
    · exact .inl h
    exact .inr ⟨d, hd, .inl h⟩

theorem jumpWhen_eq_ok (test : Int → Bool) (a b : Arg) (s t : State) :
    jumpWhen test a b s = .ok t ↔ ∃ x y, s.pc + 3 ≤ s.cfg.wordMax ∧ resolveValue s a = .ok x ∧
      resolveValue s b = .ok y ∧ t = s.setPc (if test x then y else s.pc + 3) := by
  have e : s.pc + 1 + ((2 : Nat) : Int) = s.pc + 3 := by push_cast; omega
  simp only [jumpWhen, bind_eq_ok, fallThrough_eq_ok, e]
  constructor
  · rintro ⟨n, ⟨hn, rfl⟩, x, hx, y, hy, ht⟩
    exact ⟨x, y, hn, hx, hy, by cases ht; rfl⟩
  · rintro ⟨x, y, hn, hx, hy, rfl⟩
    exact ⟨_, ⟨hn, rfl⟩, x, hx, y, hy, rfl⟩

theorem jumpWhen_eq_error (test : Int → Bool) (a b : Arg) (s : State) (c : Cause) :
    jumpWhen test a b s = .error c ↔
      (s.cfg.wordMax < s.pc + 3 ∧ c = .overflow (s.pc + 3)) ∨
      s.pc + 3 ≤ s.cfg.wordMax ∧ (resolveValue s a = .error c ∨
        ∃ x, resolveValue s a = .ok x ∧ resolveValue s b = .error c) := by
  have e : s.pc + 1 + ((2 : Nat) : Int) = s.pc + 3 := by push_cast; omega
  simp only [jumpWhen, bind_eq_error, fallThrough_eq_error, fallThrough_eq_ok, e, pure, Except.pure]
  constructor
  · rintro (h | ⟨n, ⟨hn, -⟩, h | ⟨x, hx, h | ⟨y, -, h⟩⟩⟩)
    · exact .inl h
    · exact .inr ⟨hn, .inl h⟩
    · exact .inr ⟨hn, .inr ⟨x, hx, h⟩⟩
    · cases h
  · rintro (h | ⟨hn, h | ⟨x, hx, h⟩⟩)
    · exact .inl h
    · exact .inr ⟨_, ⟨hn, rfl⟩, .inl h⟩
    · exact .inr ⟨_, ⟨hn, rfl⟩, .inr ⟨x, hx, .inl h⟩⟩

theorem adjustBase_eq_ok (a : Arg) (s t : State) :
    adjustBase a s = .ok t ↔ ∃ x, s.pc + 2 ≤ s.cfg.wordMax ∧ resolveValue s a = .ok x ∧
      s.cfg.isWord (s.rb + x) = true ∧ t = (s.setRb (s.rb + x)).setPc (s.pc + 2) := by
  have e : s.pc + 1 + ((1 : Nat) : Int) = s.pc + 2 := by push_cast; omega
  simp only [adjustBase, bind_eq_ok, fallThrough_eq_ok, checkWord_eq_ok, e]
  constructor
  · rintro ⟨n, ⟨hn, rfl⟩, x, hx, r, ⟨hr, rfl⟩, ht⟩
    exact ⟨x, hn, hx, hr, by cases ht; rfl⟩
  · rintro ⟨x, hn, hx, hr, rfl⟩
    exact ⟨_, ⟨hn, rfl⟩, x, hx, _, ⟨hr, rfl⟩, rfl⟩

theorem adjustBase_eq_error (a : Arg) (s : State) (c : Cause) :
    adjustBase a s = .error c ↔
      (s.cfg.wordMax < s.pc + 2 ∧ c = .overflow (s.pc + 2)) ∨
      s.pc + 2 ≤ s.cfg.wordMax ∧ (resolveValue s a = .error c ∨
        ∃ x, resolveValue s a = .ok x ∧ s.cfg.isWord (s.rb + x) = false ∧ c = .overflow (s.rb + x)) := by
  have e : s.pc + 1 + ((1 : Nat) : Int) = s.pc + 2 := by push_cast; omega
  simp only [adjustBase, bind_eq_error, fallThrough_eq_error, fallThrough_eq_ok, checkWord_eq_error, e, pure,
    Except.pure]
  constructor
  · rintro (h | ⟨n, ⟨hn, -⟩, h | ⟨x, hx, h | ⟨y, -, h⟩⟩⟩)
    · exact .inl h
    · exact .inr ⟨hn, .inl h⟩
    · exact .inr ⟨hn, .inr ⟨x, hx, h⟩⟩
    · cases h
  · rintro (h | ⟨hn, h | ⟨x, hx, h⟩⟩)
    · exact .inl h
    · exact .inr ⟨_, ⟨hn, rfl⟩, .inl h⟩
    · exact .inr ⟨_, ⟨hn, rfl⟩, .inr ⟨x, hx, .inl h⟩⟩

theorem haltState_eq (s : State) :
    haltState s = if s.cfg.wordMax < s.pc + 1 then .error (.overflow (s.pc + 1))
      else .ok ((s.setStatus .halted).setPc (s.pc + 1)) := by
  unfold haltState fallThrough
  simp only [CharP.cast_eq_zero, add_zero]
  split <;> rfl

theorem inputOperands_eq_ok (w : Int) (dest : Arg) (s : State) (p : Int × Int) :
    inputOperands w dest s = .ok p ↔ ∃ d, s.pc + 2 ≤ s.cfg.wordMax ∧ resolveTarget s dest w 0 = .ok d ∧
      p = (s.pc + 2, d) := by
  have e : s.pc + 1 + ((1 : Nat) : Int) = s.pc + 2 := by push_cast; omega
  simp only [inputOperands, bind_eq_ok, fallThrough_eq_ok, e, pure, Except.pure, Except.ok.injEq]
  constructor
  · rintro ⟨n, ⟨hn, rfl⟩, d, hd, rfl⟩; exact ⟨d, hn, hd, rfl⟩
  · rintro ⟨d, hn, hd, rfl⟩; exact ⟨_, ⟨hn, rfl⟩, d, hd, rfl⟩

theorem inputOperands_eq_error (w : Int) (dest : Arg) (s : State) (c : Cause) :
    inputOperands w dest s = .error c ↔ (s.cfg.wordMax < s.pc + 2 ∧ c = .overflow (s.pc + 2)) ∨
      s.pc + 2 ≤ s.cfg.wordMax ∧ resolveTarget s dest w 0 = .error c := by
  have e : s.pc + 1 + ((1 : Nat) : Int) = s.pc + 2 := by push_cast; omega
  simp only [inputOperands, bind_eq_error, fallThrough_eq_ok, fallThrough_eq_error, e, pure, Except.pure]
  constructor
  · rintro (h | ⟨n, ⟨hn, -⟩, h | ⟨x, -, h⟩⟩)
    · exact .inl h
    · exact .inr ⟨hn, h⟩
    · cases h
  · rintro (h | ⟨hn, h⟩)
    · exact .inl h
    · exact .inr ⟨_, ⟨hn, rfl⟩, .inl h⟩

theorem outputOperands_eq_ok (a : Arg) (s : State) (p : Int × Int) :
    outputOperands a s = .ok p ↔ ∃ x, s.pc + 2 ≤ s.cfg.wordMax ∧ resolveValue s a = .ok x ∧ p = (s.pc + 2, x) := by
  have e : s.pc + 1 + ((1 : Nat) : Int) = s.pc + 2 := by push_cast; omega
  simp only [outputOperands, bind_eq_ok, fallThrough_eq_ok, e, pure, Except.pure, Except.ok.injEq]
  constructor
  · rintro ⟨n, ⟨hn, rfl⟩, d, hd, rfl⟩; exact ⟨d, hn, hd, rfl⟩
  · rintro ⟨d, hn, hd, rfl⟩; exact ⟨_, ⟨hn, rfl⟩, d, hd, rfl⟩

theorem outputOperands_eq_error (a : Arg) (s : State) (c : Cause) :
    outputOperands a s = .error c ↔ (s.cfg.wordMax < s.pc + 2 ∧ c = .overflow (s.pc + 2)) ∨
      s.pc + 2 ≤ s.cfg.wordMax ∧ resolveValue s a = .error c := by
  have e : s.pc + 1 + ((1 : Nat) : Int) = s.pc + 2 := by push_cast; omega
  simp only [outputOperands, bind_eq_error, fallThrough_eq_ok, fallThrough_eq_error, e, pure, Except.pure]
  constructor
  · rintro (h | ⟨n, ⟨hn, -⟩, h | ⟨x, -, h⟩⟩)
    · exact .inl h
    · exact .inr ⟨hn, h⟩
    · cases h
  · rintro (h | ⟨hn, h⟩)
    · exact .inl h
    · exact .inr ⟨_, ⟨hn, rfl⟩, .inl h⟩

/-- A supplied value is a word, and heads the script (R31, D14). -/
theorem requestInput_eq_value (s : State) (v : Int) :
    requestInput s = .value v ↔ s.cfg.isWord v = true ∧ ∃ rest, s.input.script = .value v :: rest := by
  unfold requestInput
  split
  · rename_i h; simp [h]
  · rename_i u rest h
    cases hu : s.cfg.isWord u
    · simp only [h, Bool.false_eq_true, if_false, reduceCtorEq, false_iff]
      rintro ⟨hv, r, hr⟩; cases hr; simp [hu] at hv
    · simp only [h, if_true]
      constructor
      · intro e; cases e; exact ⟨hu, rest, rfl⟩
      · rintro ⟨-, r, hr⟩; cases hr; rfl
  · rename_i h; simp [h]
  · rename_i h; simp [h]

/-- A request stalls when the environment says so, and when its script is used up (R31) [3]. -/
theorem requestInput_eq_stall (s : State) :
    requestInput s = .stall ↔ s.input.script = [] ∨ ∃ rest, s.input.script = .stall :: rest := by
  unfold requestInput
  split <;> rename_i h
  · simp [h]
  · split <;> simp [h]
  · simp [h]
  · simp [h]

/-- A request fails when the environment says so, and when its datum is no word (R31, D14) [10]. -/
theorem requestInput_eq_fail (s : State) :
    requestInput s = .fail ↔ ∃ answer rest, s.input.script = answer :: rest ∧
      (answer = .fail ∨ ∃ v, answer = .value v ∧ s.cfg.isWord v = false) := by
  unfold requestInput
  split <;> rename_i h
  · simp [h]
  · rename_i v rest; cases hv : s.cfg.isWord v <;> simp [h, hv]
  · simp [h]
  · simp [h]

/-! ### What running an instruction can do -/

/-- The faults an instruction can take in `s` (R171): of the extent check, of an argument, and of its own execution. -/
inductive FaultOf (s : State) : Instr → Cause → Prop where
  | extent {i : Instr} (hp : s.cfg.wordMax < s.pc + 1 + i.argc) : FaultOf s i (.overflow (s.pc + 1 + i.argc))
  | immediateTarget {i : Instr} {n : Nat} {x : Arg} (hi : i.args[n]? = some (.produced, x)) (hm : x.mode = .immediate) :
      FaultOf s i (.immediateWriteTarget i.word n)
  | negative {i : Instr} {n : Nat} {k : ArgKind} {x : Arg} {a : Int} (hi : i.args[n]? = some (k, x)) (ha : a < 0)
      (hx : NamesAddress s x a) : FaultOf s i (.negativeAddress a)
  | relative {i : Instr} {n : Nat} {k : ArgKind} {x : Arg} (hi : i.args[n]? = some (k, x)) (hm : x.mode = .relative)
      (hv : s.cfg.isWord (s.rb + x.raw) = false) : FaultOf s i (.overflow (s.rb + x.raw))
  | sum {a b dest : Arg} {h : Nat} {x y : Int} (hx : resolveValue s a = .ok x) (hy : resolveValue s b = .ok y)
      (hv : s.cfg.isWord (x + y) = false) : FaultOf s (.add a b dest h) (.overflow (x + y))
  | product {a b dest : Arg} {h : Nat} {x y : Int} (hx : resolveValue s a = .ok x) (hy : resolveValue s b = .ok y)
      (hv : s.cfg.isWord (x * y) = false) : FaultOf s (.mul a b dest h) (.overflow (x * y))
  | base {a : Arg} {h : Nat} {x : Int} (hx : resolveValue s a = .ok x) (hv : s.cfg.isWord (s.rb + x) = false) :
      FaultOf s (.adjustRelativeBase a h) (.overflow (s.rb + x))
  | inputFailure {dest : Arg} {h : Nat} (hr : requestInput s = .fail) : FaultOf s (.input dest h) (.inputFailure s.pc)

theorem FaultOf.ofExtent {s : State} {i : Instr} {v : Int} (hv : v = s.pc + 1 + i.argc) (hp : s.cfg.wordMax < v) :
    FaultOf s i (.overflow v) := by
  subst hv; exact .extent hp

theorem FaultOf.ofValue {s : State} {i : Instr} {n : Nat} {k : ArgKind} {x : Arg} {c : Cause}
    (hi : i.args[n]? = some (k, x)) (h : resolveValue s x = .error c) : FaultOf s i c := by
  obtain ⟨a, ha, hx, rfl⟩ | ⟨hm, hv, rfl⟩ := resolveValue_error _ _ _ h
  · exact .negative hi ha hx
  · exact .relative hi hm hv

theorem FaultOf.ofTarget {s : State} {i : Instr} {n : Nat} {x : Arg} {c : Cause} (hi : i.args[n]? = some (.produced, x))
    (h : resolveTarget s x i.word n = .error c) : FaultOf s i c := by
  obtain ⟨hm, rfl⟩ | ⟨a, ha, hx, rfl⟩ | ⟨hm, hv, rfl⟩ := resolveTarget_error _ _ _ _ _ h
  · exact .immediateTarget hi hm
  · exact .negative hi ha hx
  · exact .relative hi hm hv

/-- The instruction computes a word and stores it at `dest`, its argument 2. -/
def StoresAt : Instr → Arg → Prop
  | .add _ _ d _, dest => d = dest
  | .mul _ _ d _, dest => d = dest
  | .lessThan _ _ d _, dest => d = dest
  | .equals _ _ d _, dest => d = dest
  | _, _ => False

/-- The instruction jumps to `b` on a test of `a`. -/
def JumpsOn : Instr → Arg → Arg → Prop
  | .jumpIfTrue a b _, x, y => a = x ∧ b = y
  | .jumpIfFalse a b _, x, y => a = x ∧ b = y
  | _, _, _ => False

/-- What running an instruction in `s` can lead to: a fault taken, or the effect of its kind (R91). -/
inductive Effect (s : State) : Instr → State → Prop where
  | fault {i : Instr} (c : Cause) (hc : FaultOf s i c) : Effect s i (raise c s)
  | store {i : Instr} {dest : Arg} (d v : Int) (hi : StoresAt i dest) (hp : s.pc + 4 ≤ s.cfg.wordMax)
      (hd : resolveTarget s dest i.word 2 = .ok d) (hv : s.cfg.isWord v = true) :
      Effect s i ((s.setMem (s.mem.write d.toNat v)).setPc (s.pc + 4))
  | input (dest : Arg) (h : Nat) (d v : Int) (hp : s.pc + 2 ≤ s.cfg.wordMax)
      (hd : resolveTarget s dest (Instr.input dest h).word 0 = .ok d) (hv : requestInput s = .value v) :
      Effect s (.input dest h) (((s.setMem (s.mem.write d.toNat v)).takeInput v).setPc (s.pc + 2))
  | waitInput (dest : Arg) (h : Nat) (hs : requestInput s = .stall) : Effect s (.input dest h) s.waitInput
  | output (a : Arg) (h : Nat) (x : Int) (hp : s.pc + 2 ≤ s.cfg.wordMax) (hx : resolveValue s a = .ok x)
      (hs : deliverOutput s = .done) : Effect s (.output a h) ((s.putOutput x).setPc (s.pc + 2))
  | waitOutput (a : Arg) (h : Nat) (hs : deliverOutput s = .stall) : Effect s (.output a h) s.waitOutput
  | jump {i : Instr} {a b : Arg} (x y : Int) (p : Bool) (hi : JumpsOn i a b) (hp : s.pc + 3 ≤ s.cfg.wordMax)
      (hx : resolveValue s a = .ok x) (hy : resolveValue s b = .ok y) : Effect s i (s.setPc (if p then y else s.pc + 3))
  | adjust (a : Arg) (h : Nat) (x : Int) (hp : s.pc + 2 ≤ s.cfg.wordMax) (hx : resolveValue s a = .ok x)
      (hr : s.cfg.isWord (s.rb + x) = true) :
      Effect s (.adjustRelativeBase a h) ((s.setRb (s.rb + x)).setPc (s.pc + 2))
  | halt (h : Nat) (hp : s.pc + 1 ≤ s.cfg.wordMax) : Effect s (.halt h) ((s.setStatus .halted).setPc (s.pc + 1))

theorem finish_effect {s : State} {i : Instr} {r : Except Cause State} (ho : ∀ t, r = .ok t → Effect s i t)
    (he : ∀ c, r = .error c → FaultOf s i c) : ∃ t, finish s r = .next t ∧ Effect s i t := by
  cases r with
  | ok t => exact ⟨t, rfl, ho t rfl⟩
  | error c => exact ⟨_, rfl, .fault c (he c rfl)⟩

theorem storeBinary_effect {s : State} {i : Instr} {a b dest : Arg} {f : Int → Int → Except Cause Int}
    (hi : StoresAt i dest) (ha : i.args = [(.consumed, a), (.consumed, b), (.produced, dest)])
    (hf : ∀ x y v, f x y = .ok v → s.cfg.isWord v = true)
    (hc : ∀ x y c, resolveValue s a = .ok x → resolveValue s b = .ok y → f x y = .error c → FaultOf s i c) :
    ∃ t, finish s (storeBinary f i.word a b dest s) = .next t ∧ Effect s i t := by
  refine finish_effect (fun t ht => ?_) fun c hs => ?_
  · obtain ⟨x, y, d, v, hp, -, -, hd, hv, rfl⟩ := (storeBinary_eq_ok _ _ _ _ _ _ _).mp ht
    exact .store d v hi hp hd (hf x y v hv)
  · have e : s.pc + 4 = s.pc + 1 + i.argc := by rw [Instr.argc, ha]; simp; omega
    obtain ⟨hp, rfl⟩ | ⟨-, h | ⟨x, hx, h | ⟨y, hy, h | ⟨d, -, h⟩⟩⟩⟩ := (storeBinary_eq_error _ _ _ _ _ _ _).mp hs
    · exact .ofExtent e hp
    · exact .ofValue (n := 0) (by rw [ha]; rfl) h
    · exact .ofValue (n := 1) (by rw [ha]; rfl) h
    · exact .ofTarget (n := 2) (by rw [ha]; rfl) h
    · exact hc x y c hx hy h

theorem jumpWhen_effect {s : State} {i : Instr} {a b : Arg} (test : Int → Bool) (hi : JumpsOn i a b)
    (ha : i.args = [(.consumed, a), (.consumed, b)]) : ∃ t, finish s (jumpWhen test a b s) = .next t ∧ Effect s i t := by
  refine finish_effect (fun t ht => ?_) fun c hs => ?_
  · obtain ⟨x, y, hp, hx, hy, rfl⟩ := (jumpWhen_eq_ok _ _ _ _ _).mp ht
    exact .jump x y (test x) hi hp hx hy
  · have e : s.pc + 3 = s.pc + 1 + i.argc := by rw [Instr.argc, ha]; simp; omega
    obtain ⟨hp, rfl⟩ | ⟨-, h | ⟨x, -, h⟩⟩ := (jumpWhen_eq_error _ _ _ _ _).mp hs
    · exact .ofExtent e hp
    · exact .ofValue (n := 0) (by rw [ha]; rfl) h
    · exact .ofValue (n := 1) (by rw [ha]; rfl) h

theorem boolWord_isWord (c : Config) (p : Bool) : c.isWord (boolWord p) = true := by
  cases p
  · exact isWord_zero c
  · exact isWord_one c

/-- Running an instruction always ends in a next state, and has one of the effects of its kind (R91). -/
theorem exec_effect (i : Instr) (s : State) : ∃ t, exec i s = .next t ∧ Effect s i t := by
  cases i with
  | add a b dest h =>
    refine storeBinary_effect rfl rfl (fun x y v hv => ?_) fun x y c hx hy hc => ?_
    · rw [checkWord_eq_ok] at hv; exact hv.2 ▸ hv.1
    · obtain ⟨hv, rfl⟩ := (checkWord_eq_error _ _ _).mp hc; exact .sum hx hy hv
  | mul a b dest h =>
    refine storeBinary_effect rfl rfl (fun x y v hv => ?_) fun x y c hx hy hc => ?_
    · rw [checkWord_eq_ok] at hv; exact hv.2 ▸ hv.1
    · obtain ⟨hv, rfl⟩ := (checkWord_eq_error _ _ _).mp hc; exact .product hx hy hv
  | lessThan a b dest h =>
    exact storeBinary_effect rfl rfl (fun x y v hv => by cases hv; exact boolWord_isWord _ _)
      fun x y c _ _ hc => by cases hc
  | equals a b dest h =>
    exact storeBinary_effect rfl rfl (fun x y v hv => by cases hv; exact boolWord_isWord _ _)
      fun x y c _ _ hc => by cases hc
  | input dest h =>
    simp only [exec, execInput]
    cases ho : inputOperands (Instr.input dest h).word dest s with
    | error c =>
      refine ⟨_, rfl, .fault c ?_⟩
      obtain ⟨hp, rfl⟩ | ⟨-, he⟩ := (inputOperands_eq_error _ _ _ _).mp ho
      · exact .ofExtent (by simp [Instr.argc, Instr.args]; omega) hp
      · exact .ofTarget (n := 0) rfl he
    | ok p =>
      obtain ⟨d, hp, hd, rfl⟩ := (inputOperands_eq_ok _ _ _ _).mp ho
      simp only [inputAt]
      cases hr : requestInput s with
      | value v =>
        refine ⟨_, ?_, .input dest h d v hp hd hr⟩
        simp only [memWrite_eq, if_neg (not_lt.mpr (resolveTarget_nonneg _ _ _ _ _ hd))]; rfl
      | stall => exact ⟨_, rfl, .waitInput dest h hr⟩
      | fail => exact ⟨_, rfl, .fault _ (.inputFailure hr)⟩
  | output a h =>
    simp only [exec, execOutput]
    cases ho : outputOperands a s with
    | error c =>
      refine ⟨_, rfl, .fault c ?_⟩
      obtain ⟨hp, rfl⟩ | ⟨-, he⟩ := (outputOperands_eq_error _ _ _).mp ho
      · exact .ofExtent (by simp [Instr.argc, Instr.args]; omega) hp
      · exact .ofValue (n := 0) rfl he
    | ok p =>
      obtain ⟨x, hp, hx, rfl⟩ := (outputOperands_eq_ok _ _ _).mp ho
      simp only [outputAt]
      cases hr : deliverOutput s with
      | done => exact ⟨_, rfl, .output a h x hp hx hr⟩
      | stall => exact ⟨_, rfl, .waitOutput a h hr⟩
  | jumpIfTrue a b h => exact jumpWhen_effect _ ⟨rfl, rfl⟩ rfl
  | jumpIfFalse a b h => exact jumpWhen_effect _ ⟨rfl, rfl⟩ rfl
  | adjustRelativeBase a h =>
    refine finish_effect (fun t ht => ?_) fun c hs => ?_
    · obtain ⟨x, hp, hx, hr, rfl⟩ := (adjustBase_eq_ok _ _ _).mp ht
      exact .adjust a h x hp hx hr
    · obtain ⟨hp, rfl⟩ | ⟨-, he | ⟨x, hx, hv, rfl⟩⟩ := (adjustBase_eq_error _ _ _).mp hs
      · exact .ofExtent (by simp [Instr.argc, Instr.args]; omega) hp
      · exact .ofValue (n := 0) rfl he
      · exact .base hx hv
  | halt h =>
    refine finish_effect (fun t ht => ?_) fun c hs => ?_
    · rw [haltState_eq] at ht
      split at ht
      · cases ht
      · cases ht; exact .halt h (by omega)
    · rw [haltState_eq] at hs
      split at hs
      · cases hs; exact .ofExtent (by simp [Instr.argc, Instr.args]) (by assumption)
      · cases hs

/-- A next state of an instruction has one of the effects of its kind. -/
theorem effect_of_exec {i : Instr} {s t : State} (h : exec i s = .next t) : Effect s i t := by
  obtain ⟨t', h', he⟩ := exec_effect i s
  rw [h'] at h; cases h; exact he

end Sys2Proof.Machine
end

