-- ==== Sys2Proof/Laws/PerInstr.lean ====
section
/-!
SUPPORT. A fact of the syntax, once per constructor: the shape of the words an instruction is encoded in (R60, R61, R73).
-/

namespace Sys2Proof.Laws.WordShape

/-- The instruction word is not negative, its two low digits are the opcode, the digits above the last mode digit write
`high`, and one raw word follows per argument. -/
def Statement (i : Instr) : Prop :=
  0 ≤ i.word ∧ opcodeField i.word.toNat = i.opcode ∧ i.word.toNat / 10 ^ (2 + i.argc) = i.high ∧
    (encode i).length = 1 + i.argc

theorem modesNumber_div (high : Nat) (ms : List Mode) : modesNumber high ms / 10 ^ ms.length = high := by
  induction ms with
  | nil => simp [modesNumber]
  | cons m ms ih =>
    have := m.digit_le
    have e : (m.digit + 10 * modesNumber high ms) / 10 = modesNumber high ms := by omega
    rw [modesNumber, List.length_cons, pow_succ', ← Nat.div_div_eq_div_mul, e, ih]

/-- The shape follows from the opcode being a number of two digits. -/
theorem of_opcode_lt (i : Instr) (h : i.opcode < 100) : Statement i := by
  refine ⟨Int.natCast_nonneg _, ?_, ?_, ?_⟩
  · simp only [opcodeField, Instr.word, Int.toNat_natCast]; omega
  · have e : (i.opcode + 100 * modesNumber i.high (i.args.map (·.2.mode))) / 10 ^ 2 =
        modesNumber i.high (i.args.map (·.2.mode)) := by omega
    have hd := modesNumber_div i.high (i.args.map (·.2.mode))
    rw [List.length_map] at hd
    rw [Instr.word, Int.toNat_natCast, pow_add, ← Nat.div_div_eq_div_mul, e, Instr.argc, hd]
  · simp [encode, Instr.argc, Nat.add_comm]

theorem add (a b dest : Arg) (high : Nat) : Statement (.add a b dest high) := of_opcode_lt _ (by simp [Instr.opcode])

theorem mul (a b dest : Arg) (high : Nat) : Statement (.mul a b dest high) := of_opcode_lt _ (by simp [Instr.opcode])

theorem input (dest : Arg) (high : Nat) : Statement (.input dest high) := of_opcode_lt _ (by simp [Instr.opcode])

theorem output (a : Arg) (high : Nat) : Statement (.output a high) := of_opcode_lt _ (by simp [Instr.opcode])

theorem jumpIfTrue (a b : Arg) (high : Nat) : Statement (.jumpIfTrue a b high) := of_opcode_lt _ (by simp [Instr.opcode])

theorem jumpIfFalse (a b : Arg) (high : Nat) : Statement (.jumpIfFalse a b high) := of_opcode_lt _ (by simp [Instr.opcode])

theorem lessThan (a b dest : Arg) (high : Nat) : Statement (.lessThan a b dest high) := of_opcode_lt _ (by simp [Instr.opcode])

theorem equals (a b dest : Arg) (high : Nat) : Statement (.equals a b dest high) := of_opcode_lt _ (by simp [Instr.opcode])

theorem adjustRelativeBase (a : Arg) (high : Nat) : Statement (.adjustRelativeBase a high) := of_opcode_lt _ (by simp [Instr.opcode])

theorem halt (high : Nat) : Statement (.halt high) := of_opcode_lt _ (by simp [Instr.opcode])

end Sys2Proof.Laws.WordShape
end

