-- ==== Sys2Proof/Laws/Step.lean ====
section
/-!
SUPPORT. What the fetch answers, and everything a step can do (R90, R91, R92, R99), said once.
-/

namespace Sys2Proof.Machine

theorem fetchDecode_eq_ok (s : State) (i : Instr) :
    fetchDecode s = .ok i ↔ 0 ≤ s.pc ∧ decodeWith (s.mem.read s.pc.toNat) (rawWord s) = .ok i := by
  unfold fetchDecode
  rw [bind_eq_ok]
  constructor
  · rintro ⟨w, hw, h⟩
    obtain ⟨h0, rfl⟩ := (memRead_eq_ok _ _ _).mp hw
    cases hd : decodeWith (s.mem.read s.pc.toNat) (rawWord s) with
    | ok j => rw [hd] at h; cases h; exact ⟨h0, rfl⟩
    | error f => rw [hd] at h; cases h
  · rintro ⟨h0, hd⟩
    exact ⟨_, (memRead_eq_ok _ _ _).mpr ⟨h0, rfl⟩, by rw [hd]; rfl⟩

theorem fetchDecode_error (s : State) (c : Cause) (h : fetchDecode s = .error c) :
    (s.pc < 0 ∧ c = .negativeAddress s.pc) ∨
      (0 ≤ s.pc ∧ ∃ f, decodeWith (s.mem.read s.pc.toNat) (rawWord s) = .error f ∧ c = causeOfDecode f) := by
  unfold fetchDecode at h
  rcases (bind_eq_error _ _ _).mp h with h | ⟨w, hw, h⟩
  · exact .inl ((memRead_eq_error _ _ _).mp h)
  · obtain ⟨h0, rfl⟩ := (memRead_eq_ok _ _ _).mp hw
    cases hd : decodeWith (s.mem.read s.pc.toNat) (rawWord s) with
    | ok j => rw [hd] at h; cases h
    | error f => rw [hd] at h; cases h; exact .inr ⟨h0, f, rfl, rfl⟩

/-- A step of a Running engine. -/
theorem step_of_running (s : State) (hs : s.status = .running) :
    step s = match fetchDecode s with
      | .ok i => exec i s
      | .error c => .next (raise c s) := by
  cases hf : fetchDecode s <;> simp [step, hs, hf]

/-- Everything a step can lead to: the same state if the engine has ended; else the fault of the fetch or of the decode, or
an effect of the instruction at the program counter. -/
theorem step_cases (s t : State) (h : step s = .next t) :
    (s.status ≠ .running ∧ t = s) ∨ (s.status = .running ∧ ((∃ c, fetchDecode s = .error c ∧ t = raise c s) ∨
      ∃ i, fetchDecode s = .ok i ∧ exec i s = .next t ∧ Effect s i t)) := by
  by_cases hs : s.status = .running
  · rw [step_of_running s hs] at h
    cases hf : fetchDecode s with
    | error c => rw [hf] at h; cases h; exact .inr ⟨hs, .inl ⟨c, rfl, rfl⟩⟩
    | ok i => rw [hf] at h; exact .inr ⟨hs, .inr ⟨i, rfl, h, effect_of_exec h⟩⟩
  · unfold step at h
    cases hst : s.status with
    | running => exact absurd hst hs
    | halted => rw [hst] at h; cases h; exact .inl ⟨by simp, rfl⟩
    | faulted c => rw [hst] at h; cases h; exact .inl ⟨by simp, rfl⟩

theorem hostStep_of_step {s t : State} (h : step s = .next t) : hostStep s = t := by unfold hostStep; rw [h]

/-- Steps add up. -/
theorem runFor_add (m n : Nat) (s : State) : runFor (m + n) s = runFor n (runFor m s) := by
  induction m generalizing s with
  | zero => simp [runFor]
  | succ m ih => rw [Nat.succ_add]; exact ih _

end Sys2Proof.Machine
end

