-- ==== Sys2Proof/Tests/Slice0.lean ====
section
/-!
SUPPORT. The model's own tests: the well-formedness smoke, a decoding of every constructor, at most two one-step vectors of
95_test_vectors.md for each instruction, and for every statement with hypotheses the concrete data that meet them. Every
expected value is the spec's (the vector's id is in the docstring), none is the model's own answer.
-/

namespace Sys2Proof.Tests

open Sys2Proof Sys2Proof.Machine

/-- `WORD_MAX` at 64 bits, as 95_test_vectors.md writes it. -/
def max64 : Int := 9223372036854775807

/-- `WORD_MIN` at 64 bits, as 95_test_vectors.md writes it. -/
def min64 : Int := -9223372036854775808

/-- An engine as the vectors of 95_test_vectors.md section 2 give it: memory, `pc`, `rb` and what the environment holds. -/
def engine (program : List Int) (pc rb : Int) (ins : List InputAnswer := []) (outs : List OutputAnswer := []) : State :=
  { State.load Config.bits64 program ins outs with pc := pc, rb := rb }

/-- The engine of vector X1 and the like: the words from an address near the top of memory on, and `pc` there. -/
def engineAt (pc : Nat) (ws : List Int) : State := { State.reset with mem := Memory.writeWords [] pc ws, pc := pc }

/-! ### Well-formedness -/

theorem test_wellFormed_good :
    Instr.wellFormed Config.bits64 (.add ⟨.relative, 2⟩ ⟨.immediate, min64⟩ ⟨.positional, max64⟩ 7) = true := by decide

/-- The unexamined digits push the instruction word out of the range. -/
theorem test_wordFits_refuses : Instr.wordFits Config.bits64 (.halt (2 ^ 60)) = false := by decide

/-- The second raw word is `WORD_MAX + 1`. -/
theorem test_rawsFit_refuses :
    Instr.rawsFit Config.bits64 (.jumpIfTrue ⟨.immediate, 1⟩ ⟨.immediate, 9223372036854775808⟩ 0) = false := by decide

theorem test_wellFormed_refuses_word : Instr.wellFormed Config.bits64 (.halt (2 ^ 60)) = false := by decide

theorem test_wellFormed_refuses_raw :
    Instr.wellFormed Config.bits64 (.output ⟨.immediate, -9223372036854775809⟩ 0) = false := by decide

/-- The word 103 of vector I5. -/
theorem test_legal_refuses : Instr.legal (.input ⟨.immediate, 5⟩ 0) = false := by decide

/-- The word 203 of vector I2. -/
theorem test_legal_good : Instr.legal (.input ⟨.relative, -2⟩ 0) = true := by decide

/-! ### Decoding: one word of every constructor, written digit by digit from R61, R63 and R65 -/

/-- Vector A3: digits 2 1 2 01. -/
theorem test_decode_add :
    decode [21201, 2, 3, -1] = .ok (.add ⟨.relative, 2⟩ ⟨.immediate, 3⟩ ⟨.relative, -1⟩ 0, []) := by decide

/-- 95_test_vectors.md 1.4: digits 0 1 0 02, with the word that follows left over. -/
theorem test_decode_mul :
    decode [1002, 4, 3, 4, 33] = .ok (.mul ⟨.positional, 4⟩ ⟨.immediate, 3⟩ ⟨.positional, 4⟩ 0, [33]) := by decide

/-- Vector I2: digits 2 03. -/
theorem test_decode_input : decode [203, -2] = .ok (.input ⟨.relative, -2⟩ 0, []) := by decide

/-- Section 2.1, word 1104: digits 1 1 04, digit 3 not examined. -/
theorem test_decode_output : decode [1104, -5] = .ok (.output ⟨.immediate, -5⟩ 1, []) := by decide

/-- Vector J9: digits 2 2 05. -/
theorem test_decode_jumpIfTrue :
    decode [2205, 1, 2] = .ok (.jumpIfTrue ⟨.relative, 1⟩ ⟨.relative, 2⟩ 0, []) := by decide

/-- 95_test_vectors.md 1.5: digits 1 0 06. -/
theorem test_decode_jumpIfFalse :
    decode [1006, 101, 0] = .ok (.jumpIfFalse ⟨.positional, 101⟩ ⟨.immediate, 0⟩ 0, []) := by decide

/-- Vector C7: digits 0 0 0 07. -/
theorem test_decode_lessThan :
    decode [7, 5, 6, 5] = .ok (.lessThan ⟨.positional, 5⟩ ⟨.positional, 6⟩ ⟨.positional, 5⟩ 0, []) := by decide

/-- Vector C11: digits 2 1 1 08. -/
theorem test_decode_equals :
    decode [21108, 0, 0, 2] = .ok (.equals ⟨.immediate, 0⟩ ⟨.immediate, 0⟩ ⟨.relative, 2⟩ 0, []) := by decide

/-- Vector R4: digits 2 09. -/
theorem test_decode_adjustRelativeBase :
    decode [209, 2] = .ok (.adjustRelativeBase ⟨.relative, 2⟩ 0, []) := by decide

/-- Section 2.1, word 199: digits 1 99, digit 2 not examined. -/
theorem test_decode_halt : decode [199] = .ok (.halt 1, []) := by decide

/-- Section 2.1, words 0, 98, 100 and -101. -/
theorem test_decode_rejects_opcodes :
    decode [0] = .error (.fault (.illegalOpcode 0)) ∧ decode [98] = .error (.fault (.illegalOpcode 98)) ∧
    decode [100] = .error (.fault (.illegalOpcode 100)) ∧ decode [-101] = .error (.fault (.illegalOpcode (-101))) := by
  decide

/-- Section 2.1, words 3101, 90001, 304 and `WORD_MAX`. -/
theorem test_decode_rejects_modes :
    decode [3101] = .error (.fault (.illegalMode 3101 1)) ∧ decode [90001] = .error (.fault (.illegalMode 90001 2)) ∧
    decode [304] = .error (.fault (.illegalMode 304 0)) ∧
    decode [max64] = .error (.fault (.illegalMode max64 0)) := by decide

/-- R60: a list that ends before its instruction does. -/
theorem test_decode_truncated : decode [1, 5, 6] = .error .truncated := by decide

/-- 30_encoding.md R75, `ADD [rb+2], #3, [rb-1]`. -/
theorem test_encode_add : encode (.add ⟨.relative, 2⟩ ⟨.immediate, 3⟩ ⟨.relative, -1⟩ 0) = [21201, 2, 3, -1] := by decide

/-! ### One step of each instruction -/

/-- Vector A3. -/
theorem test_add_relative :
    let s := engine [21201, 2, 3, -1, 0, 0, 0, 0, 0, 0, 40] 0 8
    (hostStep s).mem = s.mem.write 7 43 ∧ (hostStep s).pc = 4 := by decide

/-- Vector A6. -/
theorem test_add_overflow :
    let s := engine [1101, min64, -1, 5, 99, 77] 0 0
    hostStep s = { s with status := .faulted (.overflow (-9223372036854775809)) } := by decide

/-- Vector M1. -/
theorem test_mul_signed :
    let s := engine [2, 5, 6, 7, 99, -3, 7, 0] 0 0
    (hostStep s).mem = s.mem.write 7 (-21) ∧ (hostStep s).pc = 4 := by decide

/-- Vector M8: `2^32 * 2^31 = 2^63` does not fit. -/
theorem test_mul_overflow :
    let s := engine [1102, 4294967296, 2147483648, 5, 99, 77] 0 0
    hostStep s = { s with status := .faulted (.overflow 9223372036854775808) } := by decide

/-- Vector I2. -/
theorem test_input_relative :
    let s := engine [203, -2, 99, 0, 0, 0] 0 6 [.value (-9), .value 4]
    (hostStep s).mem = s.mem.write 4 (-9) ∧ (hostStep s).pc = 2 ∧ (hostStep s).input = ⟨[.value 4], [-9]⟩ := by decide

/-- Vector I6: the target is refused before the port is asked. -/
theorem test_input_bad_target :
    let s := engine [3, -1, 99] 0 0 [.value 7]
    hostStep s = { s with status := .faulted (.negativeAddress (-1)) } := by decide

/-- Vector O3. -/
theorem test_output_relative :
    let s := engine [204, 1, 99, 0, 0, 0, 66] 0 5
    (hostStep s).output.delivered = [66] ∧ (hostStep s).pc = 2 ∧ (hostStep s).mem = s.mem := by decide

/-- Vector O5. -/
theorem test_output_negative_address :
    let s := engine [4, -1, 99] 0 0
    hostStep s = { s with status := .faulted (.negativeAddress (-1)) } := by decide

/-- Vector J3: a negative word is true. -/
theorem test_jumpIfTrue_negative : (hostStep (engine [1105, -1, 7, 99] 0 0)).pc = 7 := by decide

/-- Vector J11: the target is resolved though the jump is not to be taken. -/
theorem test_jumpIfTrue_resolves_target :
    (hostStep (engine [105, 0, -1, 99] 0 0)).status = .faulted (.negativeAddress (-1)) := by decide

/-- Vector J5. -/
theorem test_jumpIfFalse_taken : (hostStep (engine [1106, 0, 7, 99] 0 0)).pc = 7 := by decide

/-- Vector J6. -/
theorem test_jumpIfFalse_not_taken : (hostStep (engine [1106, 3, 7, 99] 0 0)).pc = 3 := by decide

/-- Vector C4: the comparison is of signed words. -/
theorem test_lessThan_signed :
    let s := engine [1107, -1, 0, 5, 99, 7] 0 0
    (hostStep s).mem = s.mem.write 5 1 ∧ (hostStep s).pc = 4 := by decide

/-- Vector C3: the comparison is strict, and the 0 is written over the 7. -/
theorem test_lessThan_strict :
    let s := engine [1107, 4, 4, 5, 99, 7] 0 0
    (hostStep s).mem = s.mem.write 5 0 ∧ hostRead (hostStep s) 5 = 0 := by decide

/-- Vector C11. -/
theorem test_equals_relative :
    let s := engine [21108, 0, 0, 2, 99, 7, 7, 7] 0 4
    (hostStep s).mem = s.mem.write 6 1 ∧ (hostStep s).pc = 4 := by decide

/-- Vector C9. -/
theorem test_equals_sign :
    let s := engine [1108, 4, -4, 5, 99, 7] 0 0
    (hostStep s).mem = s.mem.write 5 0 := by decide

/-- Vector R4: the operand is read with the old base. -/
theorem test_adjustRelativeBase_old_base :
    let s := engine [209, 2, 99, 0, 0, -7] 0 3
    (hostStep s).rb = -4 ∧ (hostStep s).pc = 2 := by decide

/-- Vector R5. -/
theorem test_adjustRelativeBase_overflow :
    let s := engine [109, 1, 99] 0 max64
    hostStep s = { s with status := .faulted (.overflow 9223372036854775808) } := by decide

/-- Vector X2: HLT at the last address it may stand at. -/
theorem test_halt_at_the_top :
    let s := engineAt 9223372036854775806 [99]
    hostStep s = { s with status := .halted, pc := max64 } := by decide

/-- Vector X1. -/
theorem test_halt_extent :
    let s := engineAt 9223372036854775807 [99]
    hostStep s = { s with status := .faulted (.overflow 9223372036854775808) } := by decide

/-! ### Data that meet the hypotheses of each statement, one theorem per statement -/

/-- The program of scenario 3. -/
theorem witness_LoadedStateIsWellFormed : programFits Config.bits64 [1, 1, 1, 4, 99, 5, 6, 0, 99] = true := by decide

/-- Addresses -1, 0 and a resolved target. -/
theorem witness_WriteStoresOneWord :
    (-1 : Int) < 0 ∧ (0 : Int) ≤ 0 ∧ resolveTarget State.reset ⟨.positional, 0⟩ 1 2 = .ok 0 := by decide

theorem witness_CanonicalMemoryIsUnique :
    Memory.wf [(0, 2), (4, 99)] = true ∧ (∀ a, Memory.read [(0, 2), (4, 99)] a = Memory.read [(0, 2), (4, 99)] a) ∧
    Memory.read [(0, 2), (4, 99)] 1 = 0 := ⟨by decide, fun _ => rfl, by decide⟩

theorem witness_EncodeDecodeRoundTrip : decode [204, -1, 99] = .ok (.output ⟨.relative, -1⟩ 0, [99]) := by decide

/-- A word with the modes Relative, Immediate, Positional, so that each mode stands at some argument. -/
theorem witness_DigitsSelectOpcodeAndModes :
    decodeWith 1201 (fun _ => 5) = .ok (.add ⟨.relative, 5⟩ ⟨.immediate, 5⟩ ⟨.positional, 5⟩ 0) ∧
    (Instr.add ⟨.relative, 5⟩ ⟨.immediate, 5⟩ ⟨.positional, 5⟩ 0).args[0]? = some (.consumed, ⟨.relative, 5⟩) ∧
    (Instr.add ⟨.relative, 5⟩ ⟨.immediate, 5⟩ ⟨.positional, 5⟩ 0).args[1]? = some (.consumed, ⟨.immediate, 5⟩) ∧
    (Instr.add ⟨.relative, 5⟩ ⟨.immediate, 5⟩ ⟨.positional, 5⟩ 0).args[2]? = some (.produced, ⟨.positional, 5⟩) := by
  decide

theorem witness_UnexaminedDigitsDoNotMatter :
    decodeWith ((1 : Nat) : Int) (fun _ => 5) = .ok (.add ⟨.positional, 5⟩ ⟨.positional, 5⟩ ⟨.positional, 5⟩ 0) ∧
    Instr.legal (.add ⟨.positional, 5⟩ ⟨.positional, 5⟩ ⟨.positional, 5⟩ 0) = true := by decide

/-- The words 0 and -1 of section 2.1, at the least address; the iff's other side is met by the same states. -/
theorem witness_IllegalOpcodeFaultsExactly :
    (engine [0] 0 0).status = .running ∧ (0 : Int) ≤ (engine [0] 0 0).pc ∧
    step (engine [0] 0 0) = .next (hostStep (engine [0] 0 0)) ∧
    (hostStep (engine [0] 0 0)).status = .faulted (.illegalOpcode 0) ∧
    step (engine [-1] 0 0) = .next (hostStep (engine [-1] 0 0)) ∧
    (hostStep (engine [-1] 0 0)).status = .faulted (.illegalOpcode (-1)) :=
  ⟨rfl, by decide, rfl, by decide, rfl, by decide⟩

/-- The words 301 and 90001 of section 2.1: the first and the last mode digit. -/
theorem witness_IllegalModeFaultsExactly :
    (engine [301] 0 0).status = .running ∧ (0 : Int) ≤ (engine [301] 0 0).pc ∧
    step (engine [301] 0 0) = .next (hostStep (engine [301] 0 0)) ∧
    (hostStep (engine [301] 0 0)).status = .faulted (.illegalMode 301 0) ∧
    step (engine [90001] 0 0) = .next (hostStep (engine [90001] 0 0)) ∧
    (hostStep (engine [90001] 0 0)).status = .faulted (.illegalMode 90001 2) :=
  ⟨rfl, by decide, rfl, by decide, rfl, by decide⟩

/-- Raw words 0 and -1; sums `WORD_MAX + 1`, 0 and -1. -/
theorem witness_ConsumedArgumentValue :
    (0 : Int) ≤ 0 ∧ (-1 : Int) < 0 ∧
    Config.isWord (engine [] 0 max64).cfg ((engine [] 0 max64).rb + 1) = false ∧
    (Config.isWord (engine [] 0 1).cfg ((engine [] 0 1).rb + -1) = true ∧ 0 ≤ (engine [] 0 1).rb + -1) ∧
    (Config.isWord (engine [] 0 0).cfg ((engine [] 0 0).rb + -1) = true ∧ (engine [] 0 0).rb + -1 < 0) := by decide

/-- Raw words 0 and -1; sums `WORD_MIN - 1`, 0 and -1. -/
theorem witness_ProducedArgumentAddress :
    (0 : Int) ≤ 0 ∧ (-1 : Int) < 0 ∧
    Config.isWord (engine [] 0 min64).cfg ((engine [] 0 min64).rb + -1) = false ∧
    (Config.isWord (engine [] 0 1).cfg ((engine [] 0 1).rb + -1) = true ∧ 0 ≤ (engine [] 0 1).rb + -1) ∧
    (Config.isWord (engine [] 0 0).cfg ((engine [] 0 0).rb + -1) = true ∧ (engine [] 0 0).rb + -1 < 0) := by decide

/-- Vectors X1 and X3. -/
theorem witness_ExtentOverflowFaultsEveryInstruction :
    Config.wordMax (engine [] max64 0).cfg < (engine [] max64 0).pc + 1 + (Instr.halt 0).argc ∧
    Config.wordMax (engine [] (max64 - 3) 0).cfg < (engine [] (max64 - 3) 0).pc + 1 +
      (Instr.add ⟨.immediate, 1⟩ ⟨.immediate, 1⟩ ⟨.positional, 0⟩ 0).argc := by decide

/-- Vectors X9 (argument 0 is bad) and I6 (the Produced argument 0 of IN), and argument 2 of ADD after two good ones. -/
theorem witness_FirstBadArgumentIsReported :
    (let i := Instr.add ⟨.positional, -1⟩ ⟨.positional, -2⟩ ⟨.positional, -3⟩ 0
     State.reset.pc + 1 + i.argc ≤ State.reset.cfg.wordMax ∧ i.args[0]? = some (.consumed, ⟨.positional, -1⟩) ∧
     (∀ (m : Nat) (k' : ArgKind) (x' : Arg), m < 0 → i.args[m]? = some (k', x') →
       ∃ v, resolveValue State.reset x' = .ok v) ∧
     resolveValue State.reset ⟨.positional, -1⟩ = .error (.negativeAddress (-1))) ∧
    (let i := Instr.add ⟨.immediate, 7⟩ ⟨.immediate, 8⟩ ⟨.positional, -3⟩ 0
     State.reset.pc + 1 + i.argc ≤ State.reset.cfg.wordMax ∧ i.args[2]? = some (.produced, ⟨.positional, -3⟩) ∧
     (∀ (m : Nat) (k' : ArgKind) (x' : Arg), m < 2 → i.args[m]? = some (k', x') →
       ∃ v, resolveValue State.reset x' = .ok v) ∧
     resolveTarget State.reset ⟨.positional, -3⟩ i.word 2 = .error (.negativeAddress (-3))) ∧
    (let i := Instr.input ⟨.positional, -1⟩ 0
     State.reset.pc + 1 + i.argc ≤ State.reset.cfg.wordMax ∧ i.args[0]? = some (.produced, ⟨.positional, -1⟩) ∧
     resolveTarget State.reset ⟨.positional, -1⟩ i.word 0 = .error (.negativeAddress (-1))) := by
  refine ⟨⟨by decide, rfl, fun m _ _ h => absurd h (Nat.not_lt_zero m), by decide⟩, ⟨by decide, rfl, ?_, by decide⟩,
    by decide, rfl, by decide⟩
  intro m k' x' hm hx
  match m, hm with
  | 0, _ => cases hx; exact ⟨7, rfl⟩
  | 1, _ => cases hx; exact ⟨8, rfl⟩

/-- Vectors C12 and I5, the word 11107 with a bad argument 0 or 1 before, and a word that does not decode. -/
theorem witness_ImmediateWriteTargetFaults :
    State.reset.pc + 4 ≤ State.reset.cfg.wordMax ∧ (Arg.mk .immediate 3).mode = .immediate ∧
    resolveValue State.reset ⟨.immediate, 1⟩ = .ok 1 ∧ resolveValue State.reset ⟨.immediate, 2⟩ = .ok 2 ∧
    resolveValue State.reset ⟨.positional, -1⟩ = .error (.negativeAddress (-1)) ∧
    State.reset.pc + 2 ≤ State.reset.cfg.wordMax ∧
    (engine [0] 0 0).status = .running ∧ fetchDecode (engine [0] 0 0) = .error (.illegalOpcode 0) := by decide

/-- `ADD #MAX, #0, [0]` fits and `ADD #MAX, #1, [0]` does not. -/
theorem witness_AddStoresSum :
    State.reset.pc + 4 ≤ State.reset.cfg.wordMax ∧ resolveValue State.reset ⟨.immediate, max64⟩ = .ok max64 ∧
    resolveValue State.reset ⟨.immediate, 0⟩ = .ok 0 ∧ resolveValue State.reset ⟨.immediate, 1⟩ = .ok 1 ∧
    resolveTarget State.reset ⟨.positional, 0⟩
      (Instr.add ⟨.immediate, max64⟩ ⟨.immediate, 0⟩ ⟨.positional, 0⟩ 0).word 2 = .ok 0 ∧
    resolveTarget State.reset ⟨.positional, 0⟩
      (Instr.add ⟨.immediate, max64⟩ ⟨.immediate, 1⟩ ⟨.positional, 0⟩ 0).word 2 = .ok 0 ∧
    State.reset.cfg.isWord (max64 + 0) = true ∧ State.reset.cfg.isWord (max64 + 1) = false := by decide

/-- `MUL #MIN, #1, [0]` (vector M7) fits and `MUL #MIN, #-1, [0]` (vector M3) does not. -/
theorem witness_MulStoresProduct :
    State.reset.pc + 4 ≤ State.reset.cfg.wordMax ∧ resolveValue State.reset ⟨.immediate, min64⟩ = .ok min64 ∧
    resolveValue State.reset ⟨.immediate, 1⟩ = .ok 1 ∧ resolveValue State.reset ⟨.immediate, -1⟩ = .ok (-1) ∧
    resolveTarget State.reset ⟨.positional, 0⟩
      (Instr.mul ⟨.immediate, min64⟩ ⟨.immediate, 1⟩ ⟨.positional, 0⟩ 0).word 2 = .ok 0 ∧
    resolveTarget State.reset ⟨.positional, 0⟩
      (Instr.mul ⟨.immediate, min64⟩ ⟨.immediate, -1⟩ ⟨.positional, 0⟩ 0).word 2 = .ok 0 ∧
    State.reset.cfg.isWord (min64 * 1) = true ∧ State.reset.cfg.isWord (min64 * -1) = false := by decide

/-- Two equal values, where LT is strict, and a Relative target. -/
theorem witness_LessThanStoresOneOrZero :
    (engine [] 0 4).pc + 4 ≤ (engine [] 0 4).cfg.wordMax ∧ resolveValue (engine [] 0 4) ⟨.immediate, 4⟩ = .ok 4 ∧
    resolveTarget (engine [] 0 4) ⟨.relative, 2⟩
      (Instr.lessThan ⟨.immediate, 4⟩ ⟨.immediate, 4⟩ ⟨.relative, 2⟩ 0).word 2 = .ok 6 := by decide

/-- Two equal values and a Relative target (vector C11). -/
theorem witness_EqualsStoresOneOrZero :
    (Mode.relative ≠ Mode.immediate) ∧
    (engine [] 0 4).pc + 4 ≤ (engine [] 0 4).cfg.wordMax ∧ resolveValue (engine [] 0 4) ⟨.immediate, 0⟩ = .ok 0 ∧
    resolveTarget (engine [] 0 4) ⟨.relative, 2⟩
      (Instr.equals ⟨.immediate, 0⟩ ⟨.immediate, 0⟩ ⟨.relative, 2⟩ 0).word 2 = .ok 6 := by decide

/-- A state for each answer of the port: `WORD_MAX`, `WORD_MAX + 1`, a failure, a stall, and a script used up. -/
theorem witness_InputStoresSuppliedValue :
    (∀ ins : List InputAnswer,
      (engine [3, 5] 0 0 ins).pc + 2 ≤ (engine [3, 5] 0 0 ins).cfg.wordMax ∧
      resolveTarget (engine [3, 5] 0 0 ins) ⟨.positional, 5⟩ (Instr.input ⟨.positional, 5⟩ 0).word 0 = .ok 5) ∧
    (engine [3, 5] 0 0 [.value max64]).input.script = .value max64 :: [] ∧ State.reset.cfg.isWord max64 = true ∧
    (engine [3, 5] 0 0 [.value 9223372036854775808]).input.script = .value 9223372036854775808 :: [] ∧
    State.reset.cfg.isWord 9223372036854775808 = false ∧
    (engine [3, 5] 0 0 [.fail]).input.script = .fail :: [] ∧
    (engine [3, 5] 0 0 [.stall, .value 1]).input.script = .stall :: [.value 1] ∧
    (engine [3, 5] 0 0).input.script = [] :=
  ⟨fun _ => ⟨by show (0 : Int) + 2 ≤ Config.bits64.wordMax; decide, rfl⟩, by decide⟩

/-- A state for each answer of the port. -/
theorem witness_OutputDeliversValue :
    (∀ outs : List OutputAnswer,
      (engine [104, -3] 0 0 [] outs).pc + 2 ≤ (engine [104, -3] 0 0 [] outs).cfg.wordMax ∧
      resolveValue (engine [104, -3] 0 0 [] outs) ⟨.immediate, -3⟩ = .ok (-3)) ∧
    (engine [104, -3] 0 0 [] [.done]).output.script = .done :: [] ∧
    (engine [104, -3] 0 0).output.script = [] ∧
    (engine [104, -3] 0 0 [] [.stall, .done]).output.script = .stall :: [.done] :=
  ⟨fun _ => ⟨by show (0 : Int) + 2 ≤ Config.bits64.wordMax; decide, rfl⟩, by decide⟩

/-- The last `pc` the extent check lets pass and the first it does not; values -1 and 0; an argument of either that cannot
be resolved. -/
theorem witness_JumpIfTrueGoesToTarget :
    Config.bits64.wordMax < (engine [] (max64 - 2) 0).pc + 3 ∧
    (engine [] (max64 - 3) 0).pc + 3 ≤ (engine [] (max64 - 3) 0).cfg.wordMax ∧
    resolveValue (engine [] (max64 - 3) 0) ⟨.positional, -1⟩ = .error (.negativeAddress (-1)) ∧
    resolveValue (engine [] (max64 - 3) 0) ⟨.immediate, -1⟩ = .ok (-1) ∧ (-1 : Int) ≠ 0 ∧
    resolveValue (engine [] (max64 - 3) 0) ⟨.immediate, 0⟩ = .ok 0 := by decide

/-- As for JT, with the values 0 and 1. -/
theorem witness_JumpIfFalseGoesToTarget :
    Config.bits64.wordMax < (engine [] (max64 - 2) 0).pc + 3 ∧
    (engine [] (max64 - 3) 0).pc + 3 ≤ (engine [] (max64 - 3) 0).cfg.wordMax ∧
    resolveValue (engine [] (max64 - 3) 0) ⟨.relative, -1⟩ = .error (.negativeAddress (-1)) ∧
    resolveValue (engine [] (max64 - 3) 0) ⟨.immediate, 0⟩ = .ok 0 ∧
    resolveValue (engine [] (max64 - 3) 0) ⟨.immediate, 1⟩ = .ok 1 ∧ (1 : Int) ≠ 0 := by decide

/-- Vectors R5 and R7 with the base `WORD_MAX`. -/
theorem witness_AdjustRelativeBaseAddsToBase :
    (engine [] 0 max64).pc + 2 ≤ (engine [] 0 max64).cfg.wordMax ∧
    resolveValue (engine [] 0 max64) ⟨.immediate, 0⟩ = .ok 0 ∧
    (engine [] 0 max64).cfg.isWord ((engine [] 0 max64).rb + 0) = true ∧
    resolveValue (engine [] 0 max64) ⟨.immediate, 1⟩ = .ok 1 ∧
    (engine [] 0 max64).cfg.isWord ((engine [] 0 max64).rb + 1) = false := by decide

/-- Vector X2. -/
theorem witness_HaltEndsTheRun :
    (engine [] (max64 - 1) 0).pc + 1 ≤ (engine [] (max64 - 1) 0).cfg.wordMax := by decide

/-- Vector A8, an ADD that stores: cell 1 is none of its target 0. -/
theorem witness_StoringInstructionsFrame :
    (∃ t, exec (.add ⟨.immediate, 3⟩ ⟨.immediate, 4⟩ ⟨.positional, 0⟩ 0) (engine [1101, 3, 4, 0, 99] 0 0) = .next t ∧
      t.mem ≠ (engine [1101, 3, 4, 0, 99] 0 0).mem) ∧
    resolveTarget (engine [1101, 3, 4, 0, 99] 0 0) ⟨.positional, 0⟩
      (Instr.add ⟨.immediate, 3⟩ ⟨.immediate, 4⟩ ⟨.positional, 0⟩ 0).word 2 ≠ .ok ((1 : Nat) : Int) :=
  ⟨⟨hostStep (engine [1101, 3, 4, 0, 99] 0 0), rfl, by decide⟩, by decide⟩

/-- Vector I7: cell 1 is not its target 0. -/
theorem witness_InputFrame :
    (∃ t, exec (.input ⟨.positional, 0⟩ 0) (engine [3, 0, 99] 0 0 [.value 99]) = .next t ∧ t.pc = 2) ∧
    resolveTarget (engine [3, 0, 99] 0 0 [.value 99]) ⟨.positional, 0⟩ (Instr.input ⟨.positional, 0⟩ 0).word 0 ≠
      .ok ((1 : Nat) : Int) :=
  ⟨⟨hostStep (engine [3, 0, 99] 0 0 [.value 99]), rfl, by decide⟩, by decide⟩

/-- Vectors O2 and R1: one form that leaves `rb` and one that leaves the port. -/
theorem witness_NonStoringInstructionsFrame :
    (∃ t, exec (.output ⟨.immediate, -3⟩ 0) (engine [104, -3, 99] 0 0) = .next t ∧ t.output.delivered = [-3]) ∧
    (∃ t, exec (.adjustRelativeBase ⟨.immediate, 19⟩ 0) (engine [109, 19, 99] 0 2000) = .next t ∧ t.rb = 2019) :=
  ⟨⟨hostStep (engine [104, -3, 99] 0 0), rfl, by decide⟩, hostStep (engine [109, 19, 99] 0 2000), rfl, by decide⟩

/-- The words of vector A1 at address 0. -/
theorem witness_StepRunsDecodedInstruction :
    let s := engine [1, 5, 6, 7, 99, 20, 22, 0] 0 0
    s.status = .running ∧ 0 ≤ s.pc ∧
    (∀ (k : Nat) (v : Int), ([1, 5, 6, 7] : List Int)[k]? = some v → s.mem.read (s.pc + k).toNat = v) ∧
    decode [1, 5, 6, 7] = .ok (.add ⟨.positional, 5⟩ ⟨.positional, 6⟩ ⟨.positional, 7⟩ 0, []) := by
  refine ⟨rfl, by decide, fun k v h => ?_, by decide⟩
  match k with
  | 0 => cases h; decide
  | 1 => cases h; decide
  | 2 => cases h; decide
  | 3 => cases h; decide
  | n + 4 => cases h

/-- Vector J7'. -/
theorem witness_NegativePcFaultsAtFetch :
    (engine [] (-1) 0).status = .running ∧ (engine [] (-1) 0).pc < 0 := by decide

/-- A Halted and a Faulted engine. -/
theorem witness_TerminalStatusIsFinal :
    (hostStep (engine [99] 0 0)).status ≠ .running ∧ (hostStep (engine [0] 0 0)).status ≠ .running := by decide

/-- Scenario 1: a well-formed state and its step. -/
theorem witness_StepKeepsStateWellFormed :
    (engine [1, 0, 0, 0, 99] 0 0).wf = true ∧
    step (engine [1, 0, 0, 0, 99] 0 0) = .next (hostStep (engine [1, 0, 0, 0, 99] 0 0)) := ⟨by decide, rfl⟩

/-- Vector M4. -/
theorem witness_FaultIsPrecise :
    let s := engine [1102, 3037000500, 3037000500, 5, 99, 77] 0 0
    s.status = .running ∧ step s = .next (hostStep s) ∧
      (hostStep s).status = .faulted (.overflow 9223372037000250000) := ⟨rfl, rfl, by decide⟩

/-- A step that faults with each of the six causes: section 2.1 (words 98 and 3001), I5, X8 and J7', X6 and X1 and A6 and M8
and R5, I4 and a datum that is no word (D14). -/
theorem witness_FaultRecordsItsCause :
    (hostStep (engine [98] 0 0)).status = .faulted (.illegalOpcode 98) ∧
    (hostStep (engine [3001] 0 0)).status = .faulted (.illegalMode 3001 1) ∧
    (hostStep (engine [103, 5, 99] 0 0 [.value 7])).status = .faulted (.immediateWriteTarget 103 0) ∧
    (hostStep (engine [204, 5, 99] 0 (-6))).status = .faulted (.negativeAddress (-1)) ∧
    (hostStep (engine [204, max64, 99] 0 1)).status = .faulted (.overflow 9223372036854775808) ∧
    (hostStep (engine [3, 5, 99] 0 0 [.fail])).status = .faulted (.inputFailure 0) ∧
    (hostStep (engine [1105, 1, -4, 99] (-4) 0)).status = .faulted (.negativeAddress (-4)) ∧
    (hostStep (engineAt 9223372036854775807 [99])).status = .faulted (.overflow 9223372036854775808) ∧
    (hostStep (engine [1101, min64, -1, 5] 0 0)).status = .faulted (.overflow (-9223372036854775809)) ∧
    (hostStep (engine [1102, 4294967296, 2147483648, 5] 0 0)).status = .faulted (.overflow 9223372036854775808) ∧
    (hostStep (engine [109, 1, 99] 0 max64)).status = .faulted (.overflow 9223372036854775808) ∧
    (hostStep (engine [3, 5] 0 0 [.value 9223372036854775808])).status = .faulted (.inputFailure 0) ∧
    step (engine [98] 0 0) = .next (hostStep (engine [98] 0 0)) ∧
    step (engine [3, 5, 99] 0 0 [.fail]) = .next (hostStep (engine [3, 5, 99] 0 0 [.fail])) :=
  ⟨by decide, by decide, by decide, by decide, by decide, by decide, by decide, by decide, by decide, by decide, by decide,
    by decide, rfl, rfl⟩

/-- Vector J1, a jump that is taken. -/
theorem witness_PcMovesByLengthOrJump :
    let s := engine [1105, 1, 7, 99] 0 0
    s.status = .running ∧ fetchDecode s = .ok (.jumpIfTrue ⟨.immediate, 1⟩ ⟨.immediate, 7⟩ 0) ∧
      step s = .next (hostStep s) := ⟨rfl, by decide, rfl⟩

/-- Vectors R1 and H1. -/
theorem witness_OnlyArbWritesBaseOnlyHaltHalts :
    (step (engine [109, 19, 99] 0 2000) = .next (hostStep (engine [109, 19, 99] 0 2000)) ∧
      (hostStep (engine [109, 19, 99] 0 2000)).rb ≠ (engine [109, 19, 99] 0 2000).rb) ∧
    (step (engine [99] 0 0) = .next (hostStep (engine [99] 0 0)) ∧ (hostStep (engine [99] 0 0)).status = .halted ∧
      (engine [99] 0 0).status ≠ .halted) := ⟨⟨rfl, by decide⟩, rfl, by decide, by decide⟩

/-- Vectors I1, O1 and I6. -/
theorem witness_OnlyInputAndOutputUsePorts :
    (step (engine [3, 5] 0 0 [.value 7]) = .next (hostStep (engine [3, 5] 0 0 [.value 7])) ∧
      (hostStep (engine [3, 5] 0 0 [.value 7])).input ≠ (engine [3, 5] 0 0 [.value 7]).input) ∧
    (step (engine [4, 3, 99, 55] 0 0) = .next (hostStep (engine [4, 3, 99, 55] 0 0)) ∧
      (hostStep (engine [4, 3, 99, 55] 0 0)).output ≠ (engine [4, 3, 99, 55] 0 0).output) ∧
    (step (engine [3, -1, 99] 0 0 [.value 7]) = .next (hostStep (engine [3, -1, 99] 0 0 [.value 7])) ∧
      (hostStep (engine [3, -1, 99] 0 0 [.value 7])).status = .faulted (.negativeAddress (-1))) :=
  ⟨⟨rfl, by decide⟩, ⟨rfl, by decide⟩, rfl, by decide⟩

/-- Vector I3, with a script that is used up and one that says `stall`, and an OUT whose destination cannot take a word. -/
theorem witness_StalledStepIsRetried :
    (∀ s ∈ [engine [3, 5, 99] 0 0, engine [3, 5, 99] 0 0 [.stall, .value 7]],
      s.status = .running ∧ fetchDecode s = .ok (.input ⟨.positional, 5⟩ 0) ∧ s.pc + 2 ≤ s.cfg.wordMax ∧
      resolveTarget s ⟨.positional, 5⟩ (Instr.input ⟨.positional, 5⟩ 0).word 0 = .ok 5 ∧ requestInput s = .stall) ∧
    (let s := engine [104, -3, 99] 0 0 [] [.stall]
     s.status = .running ∧ fetchDecode s = .ok (.output ⟨.immediate, -3⟩ 0) ∧ s.pc + 2 ≤ s.cfg.wordMax ∧
     resolveValue s ⟨.immediate, -3⟩ = .ok (-3) ∧ deliverOutput s = .stall) := by decide

/-- Vector O4, a step that delivers. -/
theorem witness_OutputsAreDeliveredInOrder :
    step (engine [4, 1000, 99] 0 0) = .next (hostStep (engine [4, 1000, 99] 0 0)) ∧
    (hostStep (engine [4, 1000, 99] 0 0)).output.delivered = [0] := ⟨rfl, by decide⟩

/-- Vector H1: one step, after which the run has returned. -/
theorem runReturns_halt : RunReturns (engine [99] 0 0) (hostStep (engine [99] 0 0)) :=
  ⟨1, rfl, by decide, fun k hk => by have : k = 0 := by omega
                                     subst this; rfl⟩

/-- A Running engine whose run returns, the ended engine it returns, and one whose run returns Faulted. -/
theorem witness_RunReturnsWhenEnded :
    (engine [99] 0 0).status = .running ∧ RunReturns (engine [99] 0 0) (hostStep (engine [99] 0 0)) ∧
    (hostStep (engine [99] 0 0)).ended ∧ (runFor 1 (engine [99] 0 0)).ended ∧
    (hostStep (engine [99] 0 0)).status = .halted ∧ (hostStep (engine [0] 0 0)).status = .faulted (.illegalOpcode 0) :=
  ⟨rfl, runReturns_halt, by show (hostStep (engine [99] 0 0)).status ≠ .running; decide,
    by show (hostStep (engine [99] 0 0)).status ≠ .running; decide, by decide, by decide⟩

/-- The engine of vector H1 takes its one step and then stays Halted, so no step of its run faults. -/
theorem witness_SafeRunEndsWell :
    (engine [99] 0 0).status = .running ∧ SafeRun (engine [99] 0 0) ∧
      RunReturns (engine [99] 0 0) (hostStep (engine [99] 0 0)) ∧
      ∀ c, (hostStep (engine [99] 0 0)).status ≠ .faulted c := by
  have stays : ∀ n, runFor n (hostStep (engine [99] 0 0)) = hostStep (engine [99] 0 0) := by
    intro n
    induction n with
    | zero => rfl
    | succ n ih => exact ih
  refine ⟨rfl, ?_, runReturns_halt, fun c => by show Status.halted ≠ _; exact fun e => by cases e⟩
  rintro t c ⟨n, rfl⟩
  cases n with
  | zero =>
    show Status.running ≠ _
    exact fun e => by cases e
  | succ n =>
    have h : runFor (n + 1) (engine [99] 0 0) = hostStep (engine [99] 0 0) := stays n
    rw [h]
    show Status.halted ≠ _
    exact fun e => by cases e

/-- The hypotheses of StoreIsSeenByNextFetch that every storing instruction shares: `s` runs `i`, which stores `v` at `d`. -/
def Stores (s : State) (i : Instr) (dest : Arg) (v d : Int) : Prop :=
  s.status = .running ∧ fetchDecode s = .ok i ∧ s.pc + 1 + i.argc ≤ s.cfg.wordMax ∧ s.cfg.isWord v = true ∧
    resolveTarget s dest i.word (i.argc - 1) = .ok d

/-- `ADD #90, #9, [4]` stores a Halt word at the next instruction word. -/
theorem witness_StoreIsSeenByNextFetch :
    Stores (engine [1101, 90, 9, 4] 0 0) (.add ⟨.immediate, 90⟩ ⟨.immediate, 9⟩ ⟨.positional, 4⟩ 0) ⟨.positional, 4⟩ 99 4 ∧
    resolveValue (engine [1101, 90, 9, 4] 0 0) ⟨.immediate, 90⟩ = .ok 90 ∧
    resolveValue (engine [1101, 90, 9, 4] 0 0) ⟨.immediate, 9⟩ = .ok 9 ∧ (99 : Int) = 90 + 9 ∧
    decodeWith 99 (fun _ => 0) = .ok (.halt 0) := by
  unfold Stores; decide

/-- `MUL #-1, #7, [5]` stores a raw word of the OUT that follows; LT and EQ store a word that decodes (1) and one that does
not (0). -/
theorem witness_StoreIsSeenByNextFetch_computed :
    Stores (engine [1102, -1, 7, 5, 104] 0 0) (.mul ⟨.immediate, -1⟩ ⟨.immediate, 7⟩ ⟨.positional, 5⟩ 0) ⟨.positional, 5⟩
      (-7) 5 ∧
    Stores (engine [1107, 3, 8, 4] 0 0) (.lessThan ⟨.immediate, 3⟩ ⟨.immediate, 8⟩ ⟨.positional, 4⟩ 0) ⟨.positional, 4⟩ 1 4 ∧
    Stores (engine [1108, 3, 8, 4] 0 0) (.equals ⟨.immediate, 3⟩ ⟨.immediate, 8⟩ ⟨.positional, 4⟩ 0) ⟨.positional, 4⟩ 0 4 ∧
    decodeWith 0 (fun _ => 0) = .error (.illegalOpcode 0) := by
  unfold Stores; decide

/-- `IN [2]` stores the Halt word it is supplied. -/
theorem witness_StoreIsSeenByNextFetch_input :
    Stores (engine [3, 2] 0 0 [.value 99]) (.input ⟨.positional, 2⟩ 0) ⟨.positional, 2⟩ 99 2 ∧
    (engine [3, 2] 0 0 [.value 99]).input.script = .value 99 :: [] := by
  unfold Stores; decide

/-- The one-word row of HLT and a row with its raw words left zero. -/
theorem witness_TableWordRunsNext :
    0 ≤ State.reset.pc ∧ decodeTableWord 8 99 = some (.halt 0) ∧
    decodeTableWord 16 1008 = some (.equals ⟨.positional, 0⟩ ⟨.immediate, 0⟩ ⟨.positional, 0⟩ 0) := by decide

/-- A ring of two engines, whose last one hands on to the first. -/
theorem witness_RingStepMovesOutputs :
    let r := Ring.start Config.bits64 [4, 0, 99] [1, 0] 7
    2 ≤ r.engines.length ∧ r.engines[1]? = some (State.load Config.bits64 [4, 0, 99] [.value 0] []) ∧
    r.engines[(1 + 1) % r.engines.length]? = some (State.load Config.bits64 [4, 0, 99] [.value 1, .value 7] []) ∧
    (r.stepAt 1).results = [4] := by decide

end Sys2Proof.Tests
end

/-!
PROOFS. The statements of 10_state.md: what one step keeps of the state, which instruction may change which part of it, and
that the ports neither lose nor reorder a value. First the laws they share, then the statements.
-/

/-! ### The canonical form of the memory (R27, R43) -/

namespace Sys2Proof.Machine

theorem Memory.read_of_mem {m : Memory} (hm : m.Pairwise (·.1 < ·.1)) {cell : Nat × Int} (hc : cell ∈ m) :
    m.read cell.1 = cell.2 := by
  induction m with
  | nil => cases hc
  | cons head rest ih =>
    obtain ⟨hlt, hr⟩ := List.pairwise_cons.mp hm
    rcases List.mem_cons.mp hc with rfl | hc
    · simp [Memory.read]
    · have hne : head.1 ≠ cell.1 := (hlt cell hc).ne
      simp [Memory.read, hne, ih hr hc]

/-- A canonical memory lists exactly the cells that read as something other than 0. -/
theorem Memory.mem_iff_read {m : Memory} (hm : m.wf = true) (cell : Nat × Int) :
    cell ∈ m ↔ cell.2 ≠ 0 ∧ m.read cell.1 = cell.2 := by
  obtain ⟨hp, h0⟩ := (Memory.wf_iff m).mp hm
  constructor
  · exact fun hc => ⟨h0 cell hc, Memory.read_of_mem hp hc⟩
  · rintro ⟨hne, hr⟩
    rcases Memory.read_mem_or_zero m cell.1 with hc | hz
    · rwa [hr] at hc
    · exact absurd (hr.symm.trans hz) hne

/-- Canonical memories that read the same are the same: they list the same cells, in the one rising order. -/
theorem Memory.eq_of_read_eq {m n : Memory} (hm : m.wf = true) (hn : n.wf = true) (h : ∀ a, m.read a = n.read a) :
    m = n := by
  have : Std.Antisymm fun x y : Nat × Int => x.1 < y.1 := ⟨fun _ _ hxy hyx => absurd hyx hxy.asymm⟩
  have : Std.Irrefl fun x y : Nat × Int => x.1 < y.1 := ⟨fun x => lt_irrefl x.1⟩
  refine ((Memory.wf_iff m).mp hm).1.eq_of_mem_iff ((Memory.wf_iff n).mp hn).1 fun cell => ?_
  rw [Memory.mem_iff_read hm, Memory.mem_iff_read hn, h]

theorem Memory.write_zero_of_read_zero {m : Memory} {a : Nat} (hm : m.wf = true) (h : m.read a = 0) :
    m.write a 0 = m := by
  refine Memory.eq_of_read_eq (Memory.wf_write m a 0 hm) hm fun b => ?_
  by_cases hb : b = a
  · rw [hb, Memory.read_write_self, h]
  · exact Memory.read_write_ne m a b 0 hb

end Sys2Proof.Machine

/-! ### The raw words of a decoded instruction (R60, R62) -/

namespace Sys2Proof

/-- The raw words of a decoded instruction are the first `argc` of those the decoder was given, in their order. -/
theorem args_raws_of_decodeWith {w : Int} {raw : Nat → Int} {i : Instr} (h : decodeWith w raw = .ok i) :
    i.args.map (·.2.raw) = (List.range i.argc).map raw := by
  unfold decodeWith at h
  split at h
  · cases h
  · split at h
    · obtain ⟨m0, m1, m2, -, -, -, rfl⟩ := (decodeF3_eq_ok _ _ _ _).mp h; rfl
    · obtain ⟨m0, m1, m2, -, -, -, rfl⟩ := (decodeF3_eq_ok _ _ _ _).mp h; rfl
    · obtain ⟨m0, -, rfl⟩ := (decodeF1_eq_ok _ _ _ _).mp h; rfl
    · obtain ⟨m0, -, rfl⟩ := (decodeF1_eq_ok _ _ _ _).mp h; rfl
    · obtain ⟨m0, m1, -, -, rfl⟩ := (decodeF2_eq_ok _ _ _ _).mp h; rfl
    · obtain ⟨m0, m1, -, -, rfl⟩ := (decodeF2_eq_ok _ _ _ _).mp h; rfl
    · obtain ⟨m0, m1, m2, -, -, -, rfl⟩ := (decodeF3_eq_ok _ _ _ _).mp h; rfl
    · obtain ⟨m0, m1, m2, -, -, -, rfl⟩ := (decodeF3_eq_ok _ _ _ _).mp h; rfl
    · obtain ⟨m0, -, rfl⟩ := (decodeF1_eq_ok _ _ _ _).mp h; rfl
    · cases h; rfl
    · cases h

end Sys2Proof

/-! ### The invariant of the state (R29 a) -/

namespace Sys2Proof.Machine

/-- Every listed cell is at an address of the address space and holds a word. -/
def Memory.Fits (c : Config) (m : Memory) : Prop := ∀ cell ∈ m, (cell.1 : Int) ≤ c.wordMax ∧ c.isWord cell.2 = true

theorem State.wf_iff (s : State) : s.wf = true ↔
    s.mem.wf = true ∧ s.mem.Fits s.cfg ∧ s.cfg.isWord s.pc = true ∧ s.cfg.isWord s.rb = true := by
  simp [State.wf, Memory.Fits, cellFits, and_assoc]

theorem Memory.Fits.isWord_read {c : Config} {m : Memory} (h : m.Fits c) (a : Nat) : c.isWord (m.read a) = true :=
  Memory.read_isWord c m (fun cell hc => (h cell hc).2) a

theorem Memory.Fits.write {c : Config} {m : Memory} (h : m.Fits c) {a : Nat} {v : Int} (ha : (a : Int) ≤ c.wordMax)
    (hv : c.isWord v = true) : (m.write a v).Fits c := by
  intro cell hc
  rcases Memory.mem_write m a v cell hc with rfl | hc
  · exact ⟨ha, hv⟩
  · exact h cell hc

@[simp] theorem State.wf_setStatus (s : State) (st : Status) : (s.setStatus st).wf = s.wf := rfl
@[simp] theorem State.wf_raise (s : State) (c : Cause) : (raise c s).wf = s.wf := rfl
@[simp] theorem State.wf_takeInput (s : State) (v : Int) : (s.takeInput v).wf = s.wf := rfl
@[simp] theorem State.wf_waitInput (s : State) : s.waitInput.wf = s.wf := rfl
@[simp] theorem State.wf_putOutput (s : State) (v : Int) : (s.putOutput v).wf = s.wf := rfl
@[simp] theorem State.wf_waitOutput (s : State) : s.waitOutput.wf = s.wf := rfl

theorem isWord_of_nonneg_of_le {c : Config} {v : Int} (h0 : 0 ≤ v) (h : v ≤ c.wordMax) : c.isWord v = true := by
  have := wordMax_ge c; have := wordMin_eq c; rw [isWord_iff]; omega

theorem State.wf_setPc {s : State} (hs : s.wf = true) {v : Int} (hv : s.cfg.isWord v = true) :
    (s.setPc v).wf = true := by
  obtain ⟨hm, hf, -, hr⟩ := s.wf_iff.mp hs
  exact (State.wf_iff _).mpr ⟨hm, hf, hv, hr⟩

/-- Moving on by a distance that the extent check has passed keeps the invariant (R93). -/
theorem State.wf_setPc_add {s t : State} (ht : t.wf = true) (hc : t.cfg = s.cfg) {n : Int} (h0 : 0 ≤ s.pc) (hn : 0 ≤ n)
    (hp : s.pc + n ≤ s.cfg.wordMax) : (t.setPc (s.pc + n)).wf = true :=
  State.wf_setPc ht (hc ▸ isWord_of_nonneg_of_le (by omega) hp)

theorem State.wf_setRb {s : State} (hs : s.wf = true) {v : Int} (hv : s.cfg.isWord v = true) :
    (s.setRb v).wf = true := by
  obtain ⟨hm, hf, hp, -⟩ := s.wf_iff.mp hs
  exact (State.wf_iff _).mpr ⟨hm, hf, hp, hv⟩

/-- Storing a word at a target that is a word keeps the invariant: a target is not negative (R95), so it is an address. -/
theorem State.wf_store {s : State} (hs : s.wf = true) {d v : Int} (h0 : 0 ≤ d) (hd : s.cfg.isWord d = true)
    (hv : s.cfg.isWord v = true) : (s.setMem (s.mem.write d.toNat v)).wf = true := by
  obtain ⟨hm, hf, hp, hr⟩ := s.wf_iff.mp hs
  have ha : (d.toNat : Int) ≤ s.cfg.wordMax := by rw [Int.toNat_of_nonneg h0]; exact ((isWord_iff _ _).mp hd).2
  exact (State.wf_iff _).mpr ⟨Memory.wf_write _ _ _ hm, hf.write ha hv, hp, hr⟩

/-- The raw words of the instruction at the program counter are words, being read from the memory (R10). -/
theorem raw_isWord_of_fetchDecode {s : State} (hs : s.wf = true) {i : Instr} (hi : fetchDecode s = .ok i)
    {n : Nat} {k : ArgKind} {x : Arg} (hx : i.args[n]? = some (k, x)) : s.cfg.isWord x.raw = true := by
  obtain ⟨-, hf, -, -⟩ := s.wf_iff.mp hs
  obtain ⟨-, hd⟩ := (fetchDecode_eq_ok s i).mp hi
  have hmem : x.raw ∈ (List.range i.argc).map (rawWord s) :=
    args_raws_of_decodeWith hd ▸ List.mem_map_of_mem (f := (·.2.raw)) (List.mem_of_getElem? hx)
  obtain ⟨j, -, hj⟩ := List.mem_map.mp hmem
  exact hj ▸ hf.isWord_read _

/-! ### Which instruction has which effect -/

theorem StoresAt.args_eq {i : Instr} {dest : Arg} (h : StoresAt i dest) :
    ∃ a b, i.args = [(.consumed, a), (.consumed, b), (.produced, dest)] := by
  cases i with
  | add a b d _ | mul a b d _ | lessThan a b d _ | equals a b d _ => cases h; exact ⟨a, b, rfl⟩
  | _ => cases h

theorem JumpsOn.eq_jump {i : Instr} {a b : Arg} (h : JumpsOn i a b) :
    ∃ high, i = .jumpIfTrue a b high ∨ i = .jumpIfFalse a b high := by
  cases i with
  | jumpIfTrue a' b' high => obtain ⟨rfl, rfl⟩ := h; exact ⟨high, .inl rfl⟩
  | jumpIfFalse a' b' high => obtain ⟨rfl, rfl⟩ := h; exact ⟨high, .inr rfl⟩
  | _ => cases h

theorem JumpsOn.args_eq {i : Instr} {a b : Arg} (h : JumpsOn i a b) :
    i.args = [(.consumed, a), (.consumed, b)] := by
  obtain ⟨high, rfl | rfl⟩ := h.eq_jump <;> rfl

end Sys2Proof.Machine

/-! ### What an effect does to each part of the state (R22 to R24, R31 to R33, R91) -/

namespace Sys2Proof.Machine

/-- The effect of the instruction at the program counter keeps the invariant. -/
theorem Effect.wf {s t : State} {i : Instr} (he : Effect s i t) (hs : s.wf = true) (hi : fetchDecode s = .ok i) :
    t.wf = true := by
  obtain ⟨h0, -⟩ := (fetchDecode_eq_ok s i).mp hi
  obtain ⟨-, hf, -, -⟩ := s.wf_iff.mp hs
  have raw_isWord {n : Nat} {k : ArgKind} {x : Arg} (hx : i.args[n]? = some (k, x)) : s.cfg.isWord x.raw = true :=
    raw_isWord_of_fetchDecode hs hi hx
  have store_wf {n : Nat} {x : Arg} {d v : Int} (hx : i.args[n]? = some (.produced, x))
      (hd : resolveTarget s x i.word n = .ok d) (hv : s.cfg.isWord v = true) : (s.setMem (s.mem.write d.toNat v)).wf = true :=
    State.wf_store hs (resolveTarget_nonneg _ _ _ _ _ hd) (resolveTarget_isWord _ _ _ _ _ (raw_isWord hx) hd) hv
  cases he with
  | fault c => rwa [State.wf_raise]
  | store d v hst hp hd hv =>
    obtain ⟨a, b, ha⟩ := hst.args_eq
    exact State.wf_setPc_add (store_wf (by rw [ha]; rfl) hd hv) rfl h0 (by decide) hp
  | input dest h d v hp hd hv =>
    have hm := store_wf rfl hd ((requestInput_eq_value s v).mp hv).1
    exact State.wf_setPc_add (by rwa [State.wf_takeInput]) rfl h0 (by decide) hp
  | waitInput => rwa [State.wf_waitInput]
  | output a h x hp => exact State.wf_setPc_add (by rwa [State.wf_putOutput]) rfl h0 (by decide) hp
  | waitOutput => rwa [State.wf_waitOutput]
  | jump x y p hj hp hx hy =>
    have hb := raw_isWord (n := 1) (by rw [hj.args_eq]; rfl)
    have hy := resolveValue_isWord s _ y (fun cell hc => (hf cell hc).2) hb hy
    cases p
    · exact State.wf_setPc_add hs rfl h0 (by decide) hp
    · exact State.wf_setPc hs hy
  | adjust a h x hp hx hr => exact State.wf_setPc_add (State.wf_setRb hs hr) rfl h0 (by decide) hp
  | halt h hp => exact State.wf_setPc_add (by rwa [State.wf_setStatus]) rfl h0 (by decide) hp

theorem Effect.cfg_eq {s t : State} {i : Instr} (he : Effect s i t) : t.cfg = s.cfg := by cases he <;> rfl

theorem Effect.pc_eq {s t : State} {i : Instr} (he : Effect s i t) :
    t.pc = s.pc ∨ t.pc = s.pc + 1 + i.argc ∨ ∃ a b, JumpsOn i a b ∧ resolveValue s b = .ok t.pc := by
  cases he with
  | fault | waitInput | waitOutput => exact .inl rfl
  | store d v hi =>
    obtain ⟨a, b, ha⟩ := hi.args_eq
    exact .inr (.inl (by simp [Instr.argc, ha]; omega))
  | jump x y p hj _ _ hy =>
    cases p
    · exact .inr (.inl (by simp [Instr.argc, hj.args_eq]; omega))
    · exact .inr (.inr ⟨_, _, hj, hy⟩)
  | input | output | adjust => exact .inr (.inl (by simp [Instr.argc, Instr.args]; omega))
  | halt => exact .inr (.inl (by simp [Instr.argc, Instr.args]))

theorem Effect.adjusts_of_rb_ne {s t : State} {i : Instr} (he : Effect s i t) (hne : t.rb ≠ s.rb) :
    ∃ a h, i = .adjustRelativeBase a h := by
  cases he with
  | adjust a h => exact ⟨a, h, rfl⟩
  | _ => exact absurd rfl hne

theorem Effect.input_of_input_ne {s t : State} {i : Instr} (he : Effect s i t) (hne : t.input ≠ s.input) :
    ∃ dest h, i = .input dest h := by
  cases he with
  | input dest h | waitInput dest h => exact ⟨dest, h, rfl⟩
  | _ => exact absurd rfl hne

theorem Effect.output_of_output_ne {s t : State} {i : Instr} (he : Effect s i t) (hne : t.output ≠ s.output) :
    ∃ a h, i = .output a h := by
  cases he with
  | output a h | waitOutput a h => exact ⟨a, h, rfl⟩
  | _ => exact absurd rfl hne

/-- The status changes by a fault taken, which changes nothing else (R172), or by a Halt. -/
theorem Effect.status_eq {s t : State} {i : Instr} (he : Effect s i t) :
    t.status = s.status ∨ (∃ c, t = raise c s) ∨ t.status = .halted ∧ ∃ h, i = .halt h := by
  cases he with
  | fault c => exact .inr (.inl ⟨c, rfl⟩)
  | halt h => exact .inr (.inr ⟨rfl, h, rfl⟩)
  | _ => exact .inl rfl

theorem Effect.delivered_eq {s t : State} {i : Instr} (he : Effect s i t) :
    t.output.delivered = s.output.delivered ∨ ∃ a h x, i = .output a h ∧ resolveValue s a = .ok x ∧
      t.output.delivered = s.output.delivered ++ [x] := by
  cases he with
  | output a h x _ hx => exact .inr ⟨a, h, x, rfl, hx, rfl⟩
  | _ => exact .inl rfl

/-- The values consumed, followed by those the environment has still to supply (R31). -/
def InputPort.values (p : InputPort) : List Int :=
  p.consumed ++ p.script.filterMap fun x => match x with | .value v => some v | _ => none

theorem Effect.input_values_eq {s t : State} {i : Instr} (he : Effect s i t) : t.input.values = s.input.values := by
  cases he with
  | input dest h d v _ _ hv =>
    obtain ⟨-, rest, hr⟩ := (requestInput_eq_value s v).mp hv
    simp [InputPort.values, hr]
  | waitInput dest h hs =>
    obtain hr | ⟨rest, hr⟩ := (requestInput_eq_stall s).mp hs
    · simp [InputPort.values, hr]
    · simp [InputPort.values, hr]
  | _ => rfl

/-! ### From effects to steps and runs -/

/-- A part of the state that a fault leaves alone is changed only by an effect of the instruction at the program counter. -/
theorem effect_of_step_changes {α : Type} (part : State → α) (hraise : ∀ c s, part (raise c s) = part s) {s t : State}
    (h : step s = .next t) (hne : part t ≠ part s) :
    s.status = .running ∧ ∃ i, fetchDecode s = .ok i ∧ Effect s i t := by
  obtain ⟨-, rfl⟩ | ⟨hs, ⟨c, -, rfl⟩ | ⟨i, hi, -, he⟩⟩ := step_cases s t h
  · exact absurd rfl hne
  · exact absurd (hraise c s) hne
  · exact ⟨hs, i, hi, he⟩

theorem step_status_eq {s t : State} (h : step s = .next t) :
    t.status = s.status ∨ (∃ c, t = raise c s) ∨
      t.status = .halted ∧ s.status = .running ∧ ∃ high, fetchDecode s = .ok (.halt high) := by
  obtain ⟨-, rfl⟩ | ⟨hs, ⟨c, -, rfl⟩ | ⟨i, hi, -, he⟩⟩ := step_cases s t h
  · exact .inl rfl
  · exact .inr (.inl ⟨c, rfl⟩)
  · obtain hst | hc | ⟨hst, high, rfl⟩ := he.status_eq
    · exact .inl hst
    · exact .inr (.inl hc)
    · exact .inr (.inr ⟨hst, hs, high, hi⟩)

theorem step_cfg_eq {s t : State} (h : step s = .next t) : t.cfg = s.cfg := by
  by_contra hne
  obtain ⟨-, i, -, he⟩ := effect_of_step_changes State.cfg (fun _ _ => rfl) h hne
  exact hne he.cfg_eq

theorem step_input_values_eq {s t : State} (h : step s = .next t) : t.input.values = s.input.values := by
  by_contra hne
  obtain ⟨-, i, -, he⟩ := effect_of_step_changes (·.input.values) (fun _ _ => rfl) h hne
  exact hne he.input_values_eq

theorem step_delivered_eq {s t : State} (h : step s = .next t) :
    t.output.delivered = s.output.delivered ∨ ∃ a high x, s.status = .running ∧
      fetchDecode s = .ok (.output a high) ∧ resolveValue s a = .ok x ∧
      t.output.delivered = s.output.delivered ++ [x] := by
  by_cases hne : t.output.delivered = s.output.delivered
  · exact .inl hne
  obtain ⟨hs, i, hi, he⟩ := effect_of_step_changes (·.output.delivered) (fun _ _ => rfl) h hne
  obtain heq | ⟨a, high, x, rfl, hx, hd⟩ := he.delivered_eq
  · exact .inl heq
  · exact .inr ⟨a, high, x, hs, hi, hx, hd⟩

/-- A step that ends Faulted changes neither port: it took the fault, or the engine had ended before. -/
theorem step_ports_eq_of_faulted {s t : State} (h : step s = .next t) {c : Cause} (ht : t.status = .faulted c) :
    t.input = s.input ∧ t.output = s.output := by
  obtain ⟨-, rfl⟩ | ⟨hs, -⟩ := step_cases s t h
  · exact ⟨rfl, rfl⟩
  · obtain hst | ⟨c, rfl⟩ | ⟨hst, -⟩ := step_status_eq h
    · cases hs.symm.trans (hst.symm.trans ht)
    · exact ⟨rfl, rfl⟩
    · cases hst.symm.trans ht

/-- A step always ends in a next state, the one the host's `step()` answers (R204). -/
theorem step_eq_hostStep (s : State) : step s = .next (hostStep s) := by
  have ⟨t, ht⟩ : ∃ t, step s = .next t := by
    unfold step
    cases s.status with
    | running =>
      cases fetchDecode s with
      | ok i => exact (exec_effect i s).imp fun _ h => h.1
      | error c => exact ⟨_, rfl⟩
    | halted => exact ⟨s, rfl⟩
    | faulted c => exact ⟨s, rfl⟩
  rw [hostStep_of_step ht, ht]

/-- What every step keeps, any number of steps keeps. -/
theorem runFor_keeps {P : State → Prop} (hstep : ∀ s t, step s = .next t → P s → P t) (n : Nat) {s : State} (hs : P s) :
    P (runFor n s) := by
  induction n generalizing s with
  | zero => exact hs
  | succ n ih => exact ih (hstep s _ (step_eq_hostStep s) hs)

/-! ### The statements -/

/-- Settles O37: the effect of every instruction keeps the invariant, and a fault changes no part of it. -/
theorem stepKeepsStateWellFormed : Obligations.StepKeepsStateWellFormed := by
  intro s t hs h
  obtain ⟨-, rfl⟩ | ⟨-, ⟨c, -, rfl⟩ | ⟨i, hi, -, he⟩⟩ := step_cases s t h
  · exact hs
  · rwa [State.wf_raise]
  · exact he.wf hs hi

/-- Settles O6: a canonical memory is determined by what it reads. -/
theorem canonicalMemoryIsUnique : Obligations.CanonicalMemoryIsUnique :=
  ⟨fun _ _ hm hn h => Memory.eq_of_read_eq hm hn h, fun _ _ hm h => Memory.write_zero_of_read_zero hm h⟩

/-- Settles O40, by the effects of an instruction on the program counter. -/
theorem pcMovesByLengthOrJump : Obligations.PcMovesByLengthOrJump := by
  intro s t i hs hi h
  rw [step_of_running s hs, hi] at h
  obtain hpc | hpc | ⟨a, b, hj, hb⟩ := (effect_of_exec h).pc_eq
  · exact .inl hpc
  · exact .inr (.inl hpc)
  · obtain ⟨high, hj⟩ := hj.eq_jump
    exact .inr (.inr ⟨a, b, high, hj, hb⟩)

/-- Settles O41: no effect but that of ARB has another base, and none but that of HLT is Halted. -/
theorem onlyArbWritesBaseOnlyHaltHalts : Obligations.OnlyArbWritesBaseOnlyHaltHalts := by
  intro s t h
  refine ⟨step_cfg_eq h, fun hne => ?_, fun ht hs => ?_⟩
  · obtain ⟨hs, i, hi, he⟩ := effect_of_step_changes State.rb (fun _ _ => rfl) h hne
    obtain ⟨a, high, rfl⟩ := he.adjusts_of_rb_ne hne
    exact ⟨hs, a, high, hi⟩
  · obtain hst | ⟨c, rfl⟩ | ⟨-, hhalt⟩ := step_status_eq h
    · exact absurd (hst.symm.trans ht) hs
    · cases ht
    · exact hhalt

/-- Settles O42: no effect but that of IN has another input port, and none but that of OUT another output port. -/
theorem onlyInputAndOutputUsePorts : Obligations.OnlyInputAndOutputUsePorts := by
  refine ⟨fun s t h => ⟨fun hne => ?_, fun hne => ?_, fun c ht => step_ports_eq_of_faulted h ht⟩,
    fun _ _ _ _ => ⟨rfl, rfl⟩⟩
  · obtain ⟨hs, i, hi, he⟩ := effect_of_step_changes State.input (fun _ _ => rfl) h hne
    obtain ⟨dest, high, rfl⟩ := he.input_of_input_ne hne
    exact ⟨hs, dest, high, hi⟩
  · obtain ⟨hs, i, hi, he⟩ := effect_of_step_changes State.output (fun _ _ => rfl) h hne
    obtain ⟨a, high, rfl⟩ := he.output_of_output_ne hne
    exact ⟨hs, a, high, hi⟩

/-- Settles O44, by induction on the number of steps: each one moves at most the next value from the script to the consumed
ones. -/
theorem inputValuesAreConsumedInOrder : Obligations.InputValuesAreConsumedInOrder := fun n s =>
  runFor_keeps (P := fun t => t.input.values = s.input.values) (fun _ _ h hu => (step_input_values_eq h).trans hu) n rfl

/-- Settles O45, by induction on the number of steps: each one appends at most one value to those delivered. -/
theorem outputsAreDeliveredInOrder : Obligations.OutputsAreDeliveredInOrder := by
  refine ⟨fun s t h => step_delivered_eq h, fun n s => ?_⟩
  refine runFor_keeps (P := fun t => s.output.delivered <+: t.output.delivered) (fun u t h hu => ?_) n List.prefix_rfl
  obtain heq | ⟨a, high, x, -, -, -, heq⟩ := step_delivered_eq h
  · rwa [heq]
  · exact heq ▸ hu.trans (List.prefix_append _ _)

/-- Settles O1: the reset state is a literal, and 0 is a word at every width. -/
theorem resetLeavesEngineReady : Obligations.ResetLeavesEngineReady :=
  have hzero := isWord_zero State.reset.cfg
  ⟨rfl, rfl, rfl, Memory.read_nil, rfl, rfl,
    State.reset.wf_iff.mpr ⟨State.reset_mem_wf, fun _ hc => absurd hc List.not_mem_nil, hzero, hzero⟩⟩

end Sys2Proof.Machine

/-!
PROOFS. The statements of 20_memory.md: what a write does, which cells an instruction may change and what it leaves as it was,
and that the next fetch sees a store. First the laws they share, then the statements.
-/

namespace Sys2Proof.Machine

/-! ### A write and a read at integer addresses (R41, R42) -/

/-- A write to an address that is not negative answers the written memory (R42). -/
theorem memWrite_of_nonneg (m : Memory) {addr : Int} (v : Int) (h : 0 ≤ addr) :
    memWrite m addr v = .ok (m.write addr.toNat v) := by
  rw [memWrite_eq, if_neg (not_lt.mpr h)]

theorem Memory.read_write_toNat (m : Memory) {d a : Int} (v : Int) (hd : 0 ≤ d) (ha : 0 ≤ a) :
    (m.write d.toNat v).read a.toNat = if a = d then v else m.read a.toNat := by
  split
  · subst a; exact Memory.read_write_self m d.toNat v
  · exact Memory.read_write_ne m d.toNat a.toNat v (by omega)

/-! ### Which cells an effect changes (R49, R95) -/

theorem StoresAt.produced_iff {i : Instr} {dest : Arg} (h : StoresAt i dest) {n : Nat} {x : Arg} :
    i.args[n]? = some (.produced, x) ↔ n = 2 ∧ x = dest := by
  obtain ⟨a, b, ha⟩ := h.args_eq
  rw [ha]
  match n with
  | 0 | 1 | 2 | n + 3 => simp [eq_comm]

/-- The memory is as it was, or has had one word written at the target of a Produced argument. -/
theorem Effect.mem_eq {s t : State} {i : Instr} (he : Effect s i t) :
    t.mem = s.mem ∨ ∃ n x d v, i.args[n]? = some (.produced, x) ∧ resolveTarget s x i.word n = .ok d ∧
      t.mem = s.mem.write d.toNat v := by
  cases he with
  | store d v hst _ hd => exact .inr ⟨2, _, d, v, hst.produced_iff.mpr ⟨rfl, rfl⟩, hd, rfl⟩
  | input dest h d v _ hd => exact .inr ⟨0, dest, d, v, rfl, hd, rfl⟩
  | _ => exact .inl rfl

/-- A cell that is the target of no Produced argument keeps its word. -/
theorem Effect.read_eq {s t : State} {i : Instr} (he : Effect s i t) {k : Nat}
    (hk : ∀ n x, i.args[n]? = some (.produced, x) → resolveTarget s x i.word n ≠ .ok (k : Int)) :
    t.mem.read k = s.mem.read k := by
  obtain hm | ⟨n, x, d, v, hx, hd, hm⟩ := he.mem_eq
  · rw [hm]
  · have hne : (k : Int) ≠ d := fun e => hk n x hx (e ▸ hd)
    have h0 := resolveTarget_nonneg s x i.word n d hd
    rw [hm, Memory.read_write_ne _ _ _ _ (by omega)]

theorem Effect.mem_eq_of_no_target {s t : State} {i : Instr} (he : Effect s i t) (hi : ∀ x, (.produced, x) ∉ i.args) :
    t.mem = s.mem := by
  obtain hm | ⟨n, x, -, -, hx, -⟩ := he.mem_eq
  · exact hm
  · exact absurd (List.mem_of_getElem? hx) (hi x)

/-! ### What an effect leaves as it was (R49, R172) -/

theorem Effect.rb_eq {s t : State} {i : Instr} (he : Effect s i t) (hi : ∀ a h, i ≠ .adjustRelativeBase a h) :
    t.rb = s.rb := by
  by_contra hne
  obtain ⟨a, h, rfl⟩ := he.adjusts_of_rb_ne hne
  exact hi a h rfl

theorem Effect.input_eq {s t : State} {i : Instr} (he : Effect s i t) (hi : ∀ dest h, i ≠ .input dest h) :
    t.input = s.input := by
  by_contra hne
  obtain ⟨dest, h, rfl⟩ := he.input_of_input_ne hne
  exact hi dest h rfl

theorem Effect.output_eq {s t : State} {i : Instr} (he : Effect s i t) (hi : ∀ a h, i ≠ .output a h) :
    t.output = s.output := by
  by_contra hne
  obtain ⟨a, h, rfl⟩ := he.output_of_output_ne hne
  exact hi a h rfl

/-- Without a Halt, the status changes by a fault alone, which changes nothing else (R172). -/
theorem Effect.status_eq_or_faulted {s t : State} {i : Instr} (he : Effect s i t) (hi : ∀ h, i ≠ .halt h) :
    t.status = s.status ∨ ∃ c, t = { s with status := .faulted c } := by
  obtain hst | hc | ⟨-, h, rfl⟩ := he.status_eq
  · exact .inl hst
  · exact .inr hc
  · exact absurd rfl (hi h)

/-- At most one value is consumed (R120). -/
theorem Effect.consumed_eq {s t : State} {i : Instr} (he : Effect s i t) :
    t.input.consumed = s.input.consumed ∨ ∃ v, t.input.consumed = s.input.consumed ++ [v] := by
  cases he with
  | input dest h d v => exact .inr ⟨v, rfl⟩
  | _ => exact .inl rfl

/-! ### An instruction that stores, and the fetch after it (R51, R54, R92) -/

/-- What a completed store leaves (R51): the word in its cell, and the engine past the instruction with its status kept. -/
def Stored (s : State) (i : Instr) (d v : Int) (t : State) : Prop :=
  exec i s = .next t ∧ t.status = s.status ∧ t.pc = s.pc + 1 + i.argc ∧ t.mem = s.mem.write d.toNat v

theorem stored_of_storeBinary {s : State} {i : Instr} {a b dest : Arg} {f : Int → Int → Except Cause Int} {x y d v : Int}
    (hi : exec i s = finish s (storeBinary f i.word a b dest s)) (hn : i.argc = 3) (hp : s.pc + 1 + i.argc ≤ s.cfg.wordMax)
    (hx : resolveValue s a = .ok x) (hy : resolveValue s b = .ok y)
    (hd : resolveTarget s dest i.word (i.argc - 1) = .ok d) (hv : f x y = .ok v) : ∃ t, Stored s i d v t := by
  rw [hn] at hp hd
  have h := (storeBinary_eq_ok f i.word a b dest s _).mpr ⟨x, y, d, v, by push_cast at hp; omega, hx, hy, hd, hv, rfl⟩
  refine ⟨(s.setMem (s.mem.write d.toNat v)).setPc (s.pc + 4), by rw [hi, h, finish_ok], rfl, ?_, rfl⟩
  rw [State.setPc_pc, hn]; push_cast; omega

theorem stored_of_input {s : State} {dest : Arg} {h : Nat} {d v : Int} (hp : s.pc + 2 ≤ s.cfg.wordMax)
    (hd : resolveTarget s dest (Instr.input dest h).word 0 = .ok d) (hv : requestInput s = .value v) :
    ∃ t, Stored s (.input dest h) d v t := by
  have ho := (inputOperands_eq_ok (Instr.input dest h).word dest s _).mpr ⟨d, hp, hd, rfl⟩
  have hm := memWrite_of_nonneg s.mem v (resolveTarget_nonneg _ _ _ _ _ hd)
  refine ⟨((s.setMem (s.mem.write d.toNat v)).takeInput v).setPc (s.pc + 2), ?_, rfl, ?_, rfl⟩
  · simp only [exec, execInput, ho, inputAt, hv, hm]; rfl
  · simp [Instr.argc, Instr.args, add_assoc]

theorem step_of_decodeWith_ok {s : State} {j : Instr} (hs : s.status = .running) (h0 : 0 ≤ s.pc)
    (hd : decodeWith (s.mem.read s.pc.toNat) (rawWord s) = .ok j) : step s = exec j s := by
  rw [step_of_running s hs, (fetchDecode_eq_ok s j).mpr ⟨h0, hd⟩]

theorem step_of_decodeWith_error {s : State} {f : DecodeFault} (hs : s.status = .running) (h0 : 0 ≤ s.pc)
    (hd : decodeWith (s.mem.read s.pc.toNat) (rawWord s) = .error f) : step s = .next (raise (causeOfDecode f) s) := by
  have hf : fetchDecode s = .error (causeOfDecode f) := by
    rw [fetchDecode, (memRead_eq_ok _ _ _).mpr ⟨h0, rfl⟩, ok_bind_eq, hd]; rfl
  rw [step_of_running s hs, hf]

/-! ### The statements -/

/-- Settles O48: a store completes at the next instruction word, and the fetch there reads the memory it has left. -/
theorem storeIsSeenByNextFetch : Obligations.StoreIsSeenByNextFetch := by
  intro s i dest v d hs hi hp hv hd hst next cell
  have hstored : ∃ t, Stored s i d v t := by
    obtain ⟨a, b, h, x, y, hx, hy, ⟨rfl, rfl⟩ | ⟨rfl, rfl⟩ | ⟨rfl, rfl⟩ | ⟨rfl, rfl⟩⟩ | ⟨h, rest, rfl, hin⟩ := hst
    · exact stored_of_storeBinary rfl rfl hp hx hy hd ((checkWord_eq_ok _ _ _).mpr ⟨hv, rfl⟩)
    · exact stored_of_storeBinary rfl rfl hp hx hy hd ((checkWord_eq_ok _ _ _).mpr ⟨hv, rfl⟩)
    · exact stored_of_storeBinary rfl rfl hp hx hy hd (by simp [lessThanWord, boolWord])
    · exact stored_of_storeBinary rfl rfl hp hx hy hd (by simp [equalsWord, boolWord])
    · have hp : s.pc + 2 ≤ s.cfg.wordMax := by simpa [Instr.argc, Instr.args, add_assoc] using hp
      exact stored_of_input hp hd ((requestInput_eq_value s v).mpr ⟨hv, rest, hin⟩)
  obtain ⟨t, hexec, hstatus, hpc, hmem⟩ := hstored
  have hstep : step s = .next t := by rw [step_of_running s hs, hi]; exact hexec
  have hrun : t.status = .running := hstatus.trans hs
  have hnext : 0 ≤ next := by
    have h0 := ((fetchDecode_eq_ok s i).mp hi).1
    show 0 ≤ s.pc + 1 + i.argc
    omega
  have hread : ∀ a : Int, 0 ≤ a → t.mem.read a.toNat = cell a := fun a ha => by
    rw [hmem]; exact Memory.read_write_toNat s.mem v (resolveTarget_nonneg _ _ _ _ _ hd) ha
  have hword : t.mem.read t.pc.toNat = cell next := hpc ▸ hread next hnext
  have hraws : rawWord t = fun n : Nat => cell (next + 1 + n) := funext fun n => by
    rw [rawWord, hpc, add_right_comm]; exact hread _ (by omega)
  refine ⟨t, hstep, hrun, hpc, hmem, fun j hj => ?_, fun f hf => ?_⟩
  · exact step_of_decodeWith_ok hrun (hpc ▸ hnext) (by rw [hword, hraws]; exact hj)
  · exact step_of_decodeWith_error hrun (hpc ▸ hnext) (by rw [hword, hraws]; exact hf)

/-- Settles O5: a resolved target is not negative, so the write to it completes. -/
theorem writeStoresOneWord : Obligations.WriteStoresOneWord := by
  refine ⟨fun m addr v h => ?_, fun m addr v h => ?_, fun s x w n t v h => ?_⟩
  · rw [memWrite_eq, if_pos h]
  · exact ⟨_, memWrite_of_nonneg m v h, Memory.read_write_self m _ v, fun b hb => Memory.read_write_ne m _ b v hb⟩
  · exact memWrite_of_nonneg s.mem v (resolveTarget_nonneg s x w n t h)

/-- Settles O30, from the frame of every effect: these four have one Produced argument, and are no ARB, no HLT and no port's
instruction. -/
theorem storingInstructionsFrame : Obligations.StoringInstructionsFrame := by
  intro i a b dest h s t hi hexec
  have he := effect_of_exec hexec
  have hst : StoresAt i dest := by obtain rfl | rfl | rfl | rfl := hi <;> rfl
  refine ⟨he.cfg_eq, he.rb_eq ?_, he.input_eq ?_, he.output_eq ?_, he.status_eq_or_faulted ?_, fun k hk => he.read_eq ?_⟩
  · rintro _ _ rfl; exact hst
  · rintro _ _ rfl; exact hst
  · rintro _ _ rfl; exact hst
  · rintro _ rfl; exact hst
  · intro n x hx
    obtain ⟨rfl, rfl⟩ := hst.produced_iff.mp hx
    exact hk

/-- Settles O31, from the frame of every effect: the target is the one argument of IN. -/
theorem inputFrame : Obligations.InputFrame := by
  intro dest h s t hexec
  have he := effect_of_exec hexec
  refine ⟨he.cfg_eq, he.rb_eq nofun, he.output_eq nofun, he.status_eq_or_faulted nofun, he.consumed_eq,
    fun k hk => he.read_eq fun n x hx => ?_⟩
  obtain ⟨rfl, rfl⟩ : n = 0 ∧ dest = x := by simpa [Instr.args, List.getElem?_singleton] using hx
  exact hk

/-- Settles O32, from the frame of every effect: none of these five has a Produced argument. -/
theorem nonStoringInstructionsFrame : Obligations.NonStoringInstructionsFrame := by
  intro i a b h s t hexec hi
  have he := effect_of_exec hexec
  have hmem : t.mem = s.mem :=
    he.mem_eq_of_no_target fun x => by obtain rfl | rfl | rfl | rfl | rfl := hi <;> simp [Instr.args]
  refine ⟨fun k => by rw [hmem], hmem, he.cfg_eq, he.input_eq ?_, fun hne => he.rb_eq ?_, fun hne => he.output_eq ?_, ?_⟩
  · rintro _ _ rfl; simp at hi
  · rintro _ _ rfl; exact hne (by simpa using hi)
  · rintro _ _ rfl; exact hne (by simpa using hi)
  · obtain hst | hc | ⟨hst, high, rfl⟩ := he.status_eq
    · exact .inl hst
    · exact .inr (.inr hc)
    · exact .inr (.inl ⟨by simpa using hi, hst⟩)

end Sys2Proof.Machine

/-!
PROOFS. The statements of 30_encoding.md: that decoding and encoding are inverse, what the decimal digits select, and which
words fault. First the laws they share, then the statements.
-/

/-! ### The decimal digits of a word (R6, R61) -/

namespace Sys2Proof

theorem digit_zero (w : Nat) : digit w 0 = w % 10 := by simp [digit]

theorem digit_succ (w k : Nat) : digit w (k + 1) = digit (w / 10) k := by
  rw [digit, digit, pow_succ', Nat.div_div_eq_div_mul]

theorem modeDigit_eq_digit (w n : Nat) : modeDigit w n = digit (w / 100) n := by
  rw [modeDigit, digit_succ, digit_succ, Nat.div_div_eq_div_mul]

/-- The two low digits of a word as an integer. -/
theorem opcodeField_toNat {w : Int} (h : 0 ≤ w) : (opcodeField w.toNat : Int) = w % 100 := by
  rw [opcodeField]; omega

/-- A mode digit of a word as an integer. -/
theorem modeDigit_toNat {w : Int} (h : 0 ≤ w) (n : Nat) : (modeDigit w.toNat n : Int) = w / 10 ^ (n + 2) % 10 := by
  rw [modeDigit, digit]
  push_cast
  rw [Int.toNat_of_nonneg h]

/-! ### The number that the mode digits write (R61, R63, R69) -/

theorem digits_modesNumber (high : Nat) (ms : List Mode) :
    (List.range ms.length).map (digit (modesNumber high ms)) = ms.map Mode.digit := by
  induction ms with
  | nil => rfl
  | cons m ms ih =>
    have hm := m.digit_le
    have hlow : (m.digit + 10 * modesNumber high ms) % 10 = m.digit := by omega
    have hrest : (m.digit + 10 * modesNumber high ms) / 10 = modesNumber high ms := by omega
    rw [modesNumber, List.length_cons, List.range_succ_eq_map, List.map_cons, List.map_map, List.map_cons, digit_zero, hlow,
      ← ih]
    simp only [Function.comp_def, Nat.succ_eq_add_one, digit_succ, hrest]

theorem modesNumber_of_digits (ms : List Mode) (w : Nat) (h : (List.range ms.length).map (digit w) = ms.map Mode.digit) :
    modesNumber (w / 10 ^ ms.length) ms = w := by
  induction ms generalizing w with
  | nil => simp [modesNumber]
  | cons m ms ih =>
    rw [List.length_cons, List.range_succ_eq_map, List.map_cons, List.map_map, List.map_cons, List.cons.injEq,
      digit_zero] at h
    obtain ⟨hlow, hrest⟩ := h
    simp only [Function.comp_def, Nat.succ_eq_add_one, digit_succ] at hrest
    rw [modesNumber, List.length_cons, pow_succ', ← Nat.div_div_eq_div_mul, ih _ hrest]
    omega

/-- A number in the digits above the mode digits is added above them. -/
theorem modesNumber_add (high k : Nat) (ms : List Mode) :
    modesNumber (high + k) ms = modesNumber high ms + k * 10 ^ ms.length := by
  induction ms with
  | nil => simp [modesNumber]
  | cons m ms ih => rw [modesNumber, modesNumber, ih, List.length_cons, pow_succ]; ring

/-! ### The fields of an instruction word (R61, R62) -/

theorem Instr.opcode_lt (i : Instr) : i.opcode < 100 := by
  cases i with
  | _ => simp [Instr.opcode]

/-- The decimal fields of the word `w` are those of the instruction: its opcode, the digits of its modes, and above them
the number it keeps of the unexamined digits. -/
def HasFields (w : Nat) (i : Instr) : Prop :=
  opcodeField w = i.opcode ∧ w / 10 ^ (2 + i.argc) = i.high ∧
    (List.range i.argc).map (modeDigit w) = i.args.map (·.2.mode.digit)

/-- A word has the fields of an instruction exactly if it is its instruction word (R61, R69). -/
theorem hasFields_iff (w : Nat) (i : Instr) : HasFields w i ↔ i.word = w := by
  have hmodes : modeDigit w = digit (w / 100) := funext (modeDigit_eq_digit w)
  have hlen : (i.args.map (·.2.mode)).length = i.argc := List.length_map _
  have hop := i.opcode_lt
  constructor
  · rintro ⟨hopcode, hhigh, hdigits⟩
    have hnum := modesNumber_of_digits (i.args.map (·.2.mode)) (w / 100) (by rw [hlen, ← hmodes, hdigits, List.map_map]; rfl)
    rw [hlen, Nat.div_div_eq_div_mul, ← Nat.pow_add 10 2, hhigh] at hnum
    rw [Instr.word, hnum, ← hopcode, opcodeField, Nat.mod_add_div]
  · intro hw
    obtain ⟨-, hopcode, hhigh, -⟩ := Laws.WordShape.of_opcode_lt i hop
    rw [hw, Int.toNat_natCast] at hopcode hhigh
    refine ⟨hopcode, hhigh, ?_⟩
    have hnum : w / 100 = modesNumber i.high (i.args.map (·.2.mode)) := by rw [Instr.word] at hw; omega
    have hd := digits_modesNumber i.high (i.args.map (·.2.mode))
    rw [hlen, ← hnum, ← hmodes, List.map_map] at hd
    exact hd

/-! ### What the decoder answers (R60 to R67, R69) -/

theorem decodeF1_eq_ok_iff (mk : Arg → Nat → Instr) (w : Nat) (raw : Nat → Int) (i : Instr) :
    decodeF1 mk w raw = .ok i ↔ ∃ a : Arg, (List.range 1).map (modeDigit w) = [a.mode.digit] ∧
      [a.raw] = (List.range 1).map raw ∧ i = mk a (w / 10 ^ 3) := by
  rw [decodeF1_eq_ok]
  constructor
  · rintro ⟨m0, h0, rfl⟩
    exact ⟨⟨m0, raw 0⟩, congrArg (fun d => [d]) h0, rfl, rfl⟩
  · rintro ⟨⟨m0, r0⟩, hd, hr, rfl⟩
    cases hr
    exact ⟨m0, (List.cons.inj hd).1, rfl⟩

theorem decodeF2_eq_ok_iff (mk : Arg → Arg → Nat → Instr) (w : Nat) (raw : Nat → Int) (i : Instr) :
    decodeF2 mk w raw = .ok i ↔ ∃ a b : Arg, (List.range 2).map (modeDigit w) = [a.mode.digit, b.mode.digit] ∧
      [a.raw, b.raw] = (List.range 2).map raw ∧ i = mk a b (w / 10 ^ 4) := by
  rw [decodeF2_eq_ok]
  constructor
  · rintro ⟨m0, m1, h0, h1, rfl⟩
    exact ⟨⟨m0, raw 0⟩, ⟨m1, raw 1⟩, by rw [← h0, ← h1]; rfl, rfl, rfl⟩
  · rintro ⟨⟨m0, r0⟩, ⟨m1, r1⟩, hd, hr, rfl⟩
    cases hr
    obtain ⟨h0, h1⟩ : _ ∧ _ := by simpa [List.range_succ] using hd
    exact ⟨m0, m1, h0, h1, rfl⟩

theorem decodeF3_eq_ok_iff (mk : Arg → Arg → Arg → Nat → Instr) (w : Nat) (raw : Nat → Int) (i : Instr) :
    decodeF3 mk w raw = .ok i ↔ ∃ a b dest : Arg,
      (List.range 3).map (modeDigit w) = [a.mode.digit, b.mode.digit, dest.mode.digit] ∧
      [a.raw, b.raw, dest.raw] = (List.range 3).map raw ∧ i = mk a b dest (w / 10 ^ 5) := by
  rw [decodeF3_eq_ok]
  constructor
  · rintro ⟨m0, m1, m2, h0, h1, h2, rfl⟩
    exact ⟨⟨m0, raw 0⟩, ⟨m1, raw 1⟩, ⟨m2, raw 2⟩, by rw [← h0, ← h1, ← h2]; rfl, rfl, rfl⟩
  · rintro ⟨⟨m0, r0⟩, ⟨m1, r1⟩, ⟨m2, r2⟩, hd, hr, rfl⟩
    cases hr
    obtain ⟨h0, h1, h2⟩ : _ ∧ _ ∧ _ := by simpa [List.range_succ] using hd
    exact ⟨m0, m1, m2, h0, h1, h2, rfl⟩

theorem hasFields_of_decodeWith {w : Int} {raw : Nat → Int} {i : Instr} (h : decodeWith w raw = .ok i) :
    0 ≤ w ∧ HasFields w.toNat i := by
  unfold decodeWith at h
  split at h
  · cases h
  · refine ⟨by omega, ?_⟩
    split at h <;> rename_i hop
    · obtain ⟨a, b, dest, hd, -, rfl⟩ := (decodeF3_eq_ok_iff _ _ _ _).mp h; exact ⟨hop, rfl, hd⟩
    · obtain ⟨a, b, dest, hd, -, rfl⟩ := (decodeF3_eq_ok_iff _ _ _ _).mp h; exact ⟨hop, rfl, hd⟩
    · obtain ⟨dest, hd, -, rfl⟩ := (decodeF1_eq_ok_iff _ _ _ _).mp h; exact ⟨hop, rfl, hd⟩
    · obtain ⟨a, hd, -, rfl⟩ := (decodeF1_eq_ok_iff _ _ _ _).mp h; exact ⟨hop, rfl, hd⟩
    · obtain ⟨a, b, hd, -, rfl⟩ := (decodeF2_eq_ok_iff _ _ _ _).mp h; exact ⟨hop, rfl, hd⟩
    · obtain ⟨a, b, hd, -, rfl⟩ := (decodeF2_eq_ok_iff _ _ _ _).mp h; exact ⟨hop, rfl, hd⟩
    · obtain ⟨a, b, dest, hd, -, rfl⟩ := (decodeF3_eq_ok_iff _ _ _ _).mp h; exact ⟨hop, rfl, hd⟩
    · obtain ⟨a, b, dest, hd, -, rfl⟩ := (decodeF3_eq_ok_iff _ _ _ _).mp h; exact ⟨hop, rfl, hd⟩
    · obtain ⟨a, hd, -, rfl⟩ := (decodeF1_eq_ok_iff _ _ _ _).mp h; exact ⟨hop, rfl, hd⟩
    · cases h; exact ⟨hop, rfl, rfl⟩
    · cases h

theorem decodeWith_of_hasFields {w : Nat} {raw : Nat → Int} {i : Instr} (hw : HasFields w i)
    (hraw : i.args.map (·.2.raw) = (List.range i.argc).map raw) : decodeWith w raw = .ok i := by
  obtain ⟨hop, hhigh, hd⟩ := hw
  rw [decodeWith, if_neg (not_lt.mpr (Int.natCast_nonneg w)), Int.toNat_natCast, hop]
  cases i with
  | add a b dest _ | mul a b dest _ | lessThan a b dest _ | equals a b dest _ =>
    obtain rfl : w / 10 ^ 5 = _ := hhigh
    exact (decodeF3_eq_ok_iff _ _ _ _).mpr ⟨a, b, dest, hd, hraw, rfl⟩
  | jumpIfTrue a b _ | jumpIfFalse a b _ =>
    obtain rfl : w / 10 ^ 4 = _ := hhigh
    exact (decodeF2_eq_ok_iff _ _ _ _).mpr ⟨a, b, hd, hraw, rfl⟩
  | input a _ | output a _ | adjustRelativeBase a _ =>
    obtain rfl : w / 10 ^ 3 = _ := hhigh
    exact (decodeF1_eq_ok_iff _ _ _ _).mpr ⟨a, hd, hraw, rfl⟩
  | halt _ => exact congrArg (Except.ok ∘ Instr.halt) hhigh

/-- The decode phase answers an instruction exactly on its instruction word and its raw words (R60 to R63, R69). -/
theorem decodeWith_eq_ok_iff (w : Int) (raw : Nat → Int) (i : Instr) :
    decodeWith w raw = .ok i ↔ i.word = w ∧ i.args.map (·.2.raw) = (List.range i.argc).map raw := by
  constructor
  · intro h
    obtain ⟨h0, hf⟩ := hasFields_of_decodeWith h
    exact ⟨((hasFields_iff _ _).mp hf).trans (Int.toNat_of_nonneg h0), args_raws_of_decodeWith h⟩
  · rintro ⟨hw, hraw⟩
    lift w to Nat using hw ▸ Int.natCast_nonneg _
    exact decodeWith_of_hasFields ((hasFields_iff w i).mpr hw) hraw

/-- Two lists that run along each other agree at each place. -/
theorem map_range_getElem {α β : Type} {l : List α} {f : α → β} {g : Nat → β}
    (h : l.map f = (List.range l.length).map g) {n : Nat} {y : α} (hy : l[n]? = some y) : f y = g n := by
  obtain ⟨hlt, rfl⟩ := List.getElem?_eq_some_iff.mp hy
  simpa [hlt] using congrArg (·[n]?) h

/-! ### Decoding a list of words (R60, R73) -/

/-- The decoder's view of the raw words, a word for every number, begins with the list it was made from. -/
theorem map_range_getD {ws : List Int} {n : Nat} (h : n ≤ ws.length) :
    (List.range n).map (fun k => ws.getD k 0) = ws.take n := by
  refine List.ext_getElem (by simp [h]) fun k hk hk' => ?_
  have : k < ws.length := by simp at hk'; omega
  simp [this]

theorem decode_cons_eq_ok_iff (w : Int) (vs : List Int) (i : Instr) (rest : List Int) :
    decode (w :: vs) = .ok (i, rest) ↔
      decodeWith w (fun n => vs.getD n 0) = .ok i ∧ i.argc ≤ vs.length ∧ rest = vs.drop i.argc := by
  rw [decode]
  cases decodeWith w (fun n => vs.getD n 0) with
  | error f => simp
  | ok j =>
    by_cases hj : j.argc ≤ vs.length
    · simp only [if_pos hj, Except.ok.injEq, Prod.mk.injEq]
      exact ⟨fun ⟨e, hr⟩ => e ▸ ⟨rfl, hj, hr.symm⟩, fun ⟨e, _, hr⟩ => e ▸ ⟨rfl, by rw [hr, e]⟩⟩
    · simp only [if_neg hj, reduceCtorEq, Except.ok.injEq, false_iff]
      rintro ⟨rfl, hle, -⟩; exact hj hle

/-- The decoder is the inverse of the encoder (R60, R73). -/
theorem decode_eq_ok_iff (ws : List Int) (i : Instr) (rest : List Int) :
    decode ws = .ok (i, rest) ↔ encode i ++ rest = ws := by
  cases ws with
  | nil => simp [decode, encode]
  | cons w vs =>
    rw [decode_cons_eq_ok_iff, decodeWith_eq_ok_iff, encode, List.cons_append, List.cons.injEq]
    have hlen : (i.args.map (·.2.raw)).length = i.argc := List.length_map _
    constructor
    · rintro ⟨⟨hw, hraw⟩, hle, rfl⟩
      rw [hraw, map_range_getD hle, List.take_append_drop]
      exact ⟨hw, rfl⟩
    · rintro ⟨hw, rfl⟩
      have hle : i.argc ≤ (i.args.map (·.2.raw) ++ rest).length := by rw [List.length_append, hlen]; omega
      refine ⟨⟨hw, ?_⟩, hle, ?_⟩
      · rw [map_range_getD hle, List.take_left' hlen]
      · rw [List.drop_left' hlen]

end Sys2Proof

/-! ### The words the decode phase refuses (R64, R66, R67) -/

namespace Sys2Proof

/-- The opcodes there are (R65). -/
def opcodes : List Int := [1, 2, 3, 4, 5, 6, 7, 8, 9, 99]

/-- The number of arguments that an opcode has (R62, R65), 0 if it is none. -/
def argcOfOpcode (o : Int) : Nat :=
  if o ∈ ([1, 2, 7, 8] : List Int) then 3 else if o ∈ ([5, 6] : List Int) then 2
  else if o ∈ ([3, 4, 9] : List Int) then 1 else 0

theorem Instr.opcode_mem (i : Instr) : (i.opcode : Int) ∈ opcodes := by cases i <;> simp [Instr.opcode, opcodes]

theorem Instr.argcOfOpcode_opcode (i : Instr) : argcOfOpcode i.opcode = i.argc := by cases i <;> rfl

theorem argcOfOpcode_of_not_mem {o : Int} (h : o ∉ opcodes) : argcOfOpcode o = 0 := by
  simp only [opcodes, List.mem_cons, List.not_mem_nil, or_false, not_or] at h
  simp [argcOfOpcode, h]

/-- Argument `n` is the first, from argument `first` on and among the `argc` there are, whose mode digit is 3 to 9. -/
def FirstBadMode (w first argc n : Nat) : Prop :=
  first ≤ n ∧ n < argc ∧ 3 ≤ modeDigit w n ∧ ∀ m, first ≤ m → m < n → modeDigit w m ≤ 2

/-- The mode digits are examined in ascending order (R67). -/
theorem firstBadMode_of_modeOf_bind {w first argc : Nat} {next : Mode → Except DecodeFault Instr} {f : DecodeFault}
    (hlt : first < argc) (h : (modeOf w first >>= next) = .error f)
    (hnext : ∀ m, next m = .error f → ∃ n, FirstBadMode w (first + 1) argc n ∧ f = .illegalMode w n) :
    ∃ n, FirstBadMode w first argc n ∧ f = .illegalMode w n := by
  rcases (Machine.bind_eq_error _ _ _).mp h with h | ⟨m, hm, h⟩
  · obtain ⟨hbad, rfl⟩ := (modeOf_eq_error _ _ _).mp h
    exact ⟨first, ⟨le_rfl, hlt, hbad, fun m h1 h2 => absurd h2 (not_lt.mpr h1)⟩, rfl⟩
  · have hgood : modeDigit w first ≤ 2 := (modeOf_eq_ok w first m).mp hm ▸ m.digit_le
    obtain ⟨n, ⟨hn, hn', hbad, hbefore⟩, hf⟩ := hnext m h
    refine ⟨n, ⟨by omega, hn', hbad, fun k hk hkn => ?_⟩, hf⟩
    rcases Nat.eq_or_lt_of_le hk with rfl | hk
    · exact hgood
    · exact hbefore k hk hkn

theorem decodeF1_error {mk : Arg → Nat → Instr} {w : Nat} {raw : Nat → Int} {f : DecodeFault}
    (h : decodeF1 mk w raw = .error f) : ∃ n, FirstBadMode w 0 1 n ∧ f = .illegalMode w n :=
  firstBadMode_of_modeOf_bind (by decide) h fun _ => nofun

theorem decodeF2_error {mk : Arg → Arg → Nat → Instr} {w : Nat} {raw : Nat → Int} {f : DecodeFault}
    (h : decodeF2 mk w raw = .error f) : ∃ n, FirstBadMode w 0 2 n ∧ f = .illegalMode w n :=
  firstBadMode_of_modeOf_bind (by decide) h fun _ h => firstBadMode_of_modeOf_bind (by decide) h fun _ => nofun

theorem decodeF3_error {mk : Arg → Arg → Arg → Nat → Instr} {w : Nat} {raw : Nat → Int} {f : DecodeFault}
    (h : decodeF3 mk w raw = .error f) : ∃ n, FirstBadMode w 0 3 n ∧ f = .illegalMode w n :=
  firstBadMode_of_modeOf_bind (by decide) h fun _ h => firstBadMode_of_modeOf_bind (by decide) h fun _ h =>
    firstBadMode_of_modeOf_bind (by decide) h fun _ => nofun

/-- The faults of the decode phase: no opcode, or a bad mode digit of an argument there is. -/
theorem decodeWith_error {w : Int} {raw : Nat → Int} {f : DecodeFault} (h : decodeWith w raw = .error f) :
    (f = .illegalOpcode w ∧ (w < 0 ∨ w % 100 ∉ opcodes)) ∨
      0 ≤ w ∧ ∃ n, FirstBadMode w.toNat 0 (argcOfOpcode (w % 100)) n ∧ f = .illegalMode w n := by
  unfold decodeWith at h
  split at h
  · cases h; exact .inl ⟨rfl, .inl ‹_›⟩
  · have h0 : 0 ≤ w := by omega
    have hw := opcodeField_toNat h0
    have badMode {o argc : Nat} (hop : opcodeField w.toNat = o) (hargc : argcOfOpcode o = argc)
        (hbad : ∃ n, FirstBadMode w.toNat 0 argc n ∧ f = .illegalMode w.toNat n) :
        0 ≤ w ∧ ∃ n, FirstBadMode w.toNat 0 (argcOfOpcode (w % 100)) n ∧ f = .illegalMode w n := by
      rw [hop] at hw
      rw [Int.toNat_of_nonneg h0] at hbad
      exact ⟨h0, by rwa [← hw, hargc]⟩
    split at h <;> rename_i hop
    · exact .inr (badMode hop rfl (decodeF3_error h))
    · exact .inr (badMode hop rfl (decodeF3_error h))
    · exact .inr (badMode hop rfl (decodeF1_error h))
    · exact .inr (badMode hop rfl (decodeF1_error h))
    · exact .inr (badMode hop rfl (decodeF2_error h))
    · exact .inr (badMode hop rfl (decodeF2_error h))
    · exact .inr (badMode hop rfl (decodeF3_error h))
    · exact .inr (badMode hop rfl (decodeF3_error h))
    · exact .inr (badMode hop rfl (decodeF1_error h))
    · cases h
    · cases h
      refine .inl ⟨rfl, .inr ?_⟩
      rw [← hw]
      simp only [opcodes, List.mem_cons, List.not_mem_nil, or_false]
      norm_cast
      tauto

end Sys2Proof

/-! ### Exactly which words are refused (R64, R66, R67) -/

namespace Sys2Proof

/-- A word that decodes has the opcode of its instruction and a mode digit 0 to 2 for each argument. -/
theorem fields_of_decodeWith {w : Int} {raw : Nat → Int} {i : Instr} (h : decodeWith w raw = .ok i) :
    0 ≤ w ∧ (i.opcode : Int) = w % 100 ∧ ∀ (n : Nat) (y : ArgKind × Arg), i.args[n]? = some y →
      w / 10 ^ (n + 2) % 10 = y.2.mode.digit ∧ y.2.raw = raw n := by
  obtain ⟨h0, hop, -, hdigits⟩ := hasFields_of_decodeWith h
  refine ⟨h0, by rw [← hop, opcodeField_toNat h0], fun n y hy => ⟨?_, ?_⟩⟩
  · rw [← modeDigit_toNat h0, map_range_getElem hdigits.symm hy]
  · exact map_range_getElem (args_raws_of_decodeWith h) hy

theorem decodeWith_eq_illegalOpcode_iff (w : Int) (raw : Nat → Int) (v : Int) :
    decodeWith w raw = .error (.illegalOpcode v) ↔ v = w ∧ (v < 0 ∨ v % 100 ∉ opcodes) := by
  constructor
  · intro h
    obtain ⟨hf, hw⟩ | ⟨-, n, -, hf⟩ := decodeWith_error h
    · cases hf; exact ⟨rfl, hw⟩
    · cases hf
  · rintro ⟨rfl, hw⟩
    cases hd : decodeWith v raw with
    | ok i =>
      obtain ⟨h0, hop, -⟩ := fields_of_decodeWith hd
      exact absurd hw (not_or.mpr ⟨not_lt.mpr h0, not_not.mpr (hop ▸ i.opcode_mem)⟩)
    | error f =>
      obtain ⟨rfl, -⟩ | ⟨h0, n, ⟨-, hn, -⟩, -⟩ := decodeWith_error hd
      · rfl
      · rw [argcOfOpcode_of_not_mem (hw.resolve_left (not_lt.mpr h0))] at hn
        exact absurd hn (Nat.not_lt_zero n)

theorem FirstBadMode.unique {w first argc m n : Nat} (hm : FirstBadMode w first argc m) (hn : FirstBadMode w first argc n) :
    m = n := by
  obtain ⟨hm1, -, hm3, hm4⟩ := hm
  obtain ⟨hn1, -, hn3, hn4⟩ := hn
  rcases lt_trichotomy m n with h | h | h
  · have := hn4 m hm1 h; omega
  · exact h
  · have := hm4 n hn1 h; omega

theorem decodeWith_eq_illegalMode_iff (w : Int) (raw : Nat → Int) (v : Int) (n : Nat) :
    decodeWith w raw = .error (.illegalMode v n) ↔
      v = w ∧ 0 ≤ v ∧ FirstBadMode v.toNat 0 (argcOfOpcode (v % 100)) n := by
  constructor
  · intro h
    obtain ⟨hf, -⟩ | ⟨h0, m, hm, hf⟩ := decodeWith_error h
    · cases hf
    · cases hf; exact ⟨rfl, h0, hm⟩
  · rintro ⟨rfl, h0, hn⟩
    cases hd : decodeWith v raw with
    | ok i =>
      obtain ⟨-, hop, hargs⟩ := fields_of_decodeWith hd
      obtain ⟨-, hlt, hbad, -⟩ := hn
      rw [← hop, i.argcOfOpcode_opcode] at hlt
      obtain ⟨hdigit, -⟩ := hargs n _ (List.getElem?_eq_getElem hlt)
      rw [← modeDigit_toNat h0] at hdigit
      have := (i.args[n]'hlt).2.mode.digit_le
      omega
    | error f =>
      obtain ⟨rfl, hw⟩ | ⟨-, m, hm, rfl⟩ := decodeWith_error hd
      · obtain ⟨-, hlt, -⟩ := hn
        rw [argcOfOpcode_of_not_mem (hw.resolve_left (not_lt.mpr h0))] at hlt
        exact absurd hlt (Nat.not_lt_zero n)
      · rw [hm.unique hn]

/-- The first bad mode digit of a word, read off the word as an integer. -/
theorem firstBadMode_zero_iff {w : Int} (h : 0 ≤ w) (argc n : Nat) :
    FirstBadMode w.toNat 0 argc n ↔
      n < argc ∧ 3 ≤ w / 10 ^ (n + 2) % 10 ∧ ∀ m, m < n → w / 10 ^ (m + 2) % 10 ≤ 2 := by
  simp only [FirstBadMode, ← modeDigit_toNat h, Nat.zero_le, true_and, forall_const]
  norm_cast

end Sys2Proof

/-! ### A step that faults in the decode phase (R90, R92, R171) -/

namespace Sys2Proof.Machine

theorem causeOfDecode_injective : Function.Injective causeOfDecode := by
  intro f g h
  cases f <;> cases g <;> cases h <;> rfl

/-- An instruction that has passed the decode phase takes no fault of it. -/
theorem FaultOf.ne_causeOfDecode {s : State} {i : Instr} {c : Cause} (h : FaultOf s i c) (f : DecodeFault) :
    c ≠ causeOfDecode f := by
  cases h <;> cases f <;> nofun

theorem Effect.faultOf_of_faulted {s t : State} {i : Instr} (he : Effect s i t) (hs : s.status = .running) {c : Cause}
    (ht : t.status = .faulted c) : FaultOf s i c := by
  cases he with
  | fault c' hc => cases ht; exact hc
  | halt => cases ht
  | _ => cases hs.symm.trans ht

/-- A step records a fault of the decode phase exactly when the decoder answers it (R90, R92). -/
theorem step_records_decodeFault_iff {s t : State} (hs : s.status = .running) (h0 : 0 ≤ s.pc) (h : step s = .next t)
    (f : DecodeFault) :
    t.status = .faulted (causeOfDecode f) ↔ decodeWith (s.mem.read s.pc.toNat) (rawWord s) = .error f := by
  cases hd : decodeWith (s.mem.read s.pc.toNat) (rawWord s) with
  | ok i =>
    rw [step_of_decodeWith_ok hs h0 hd] at h
    simp only [reduceCtorEq, iff_false]
    exact fun ht => ((effect_of_exec h).faultOf_of_faulted hs ht).ne_causeOfDecode f rfl
  | error g =>
    rw [step_of_decodeWith_error hs h0 hd] at h
    cases h
    rw [raise_status, Status.faulted.injEq, causeOfDecode_injective.eq_iff, Except.error.injEq]

end Sys2Proof.Machine

/-! ### The legal canonical words (R68, R70) -/

namespace Sys2Proof

/-- The mode digits that a legal argument of the kind can have (R63, R68). -/
def legalDigits : ArgKind → List Nat
  | .consumed => [0, 1, 2]
  | .produced => [0, 2]

/-- The numbers that legal mode digits of arguments of the kinds write, in ascending order. -/
def legalNumbers : List ArgKind → List Nat
  | [] => [0]
  | k :: ks => (legalNumbers ks).flatMap fun number => (legalDigits k).map (· + 10 * number)

theorem digit_mem_legalDigits (k : ArgKind) (m : Mode) :
    m.digit ∈ legalDigits k ↔ !(k == .produced && m == .immediate) := by
  cases k <;> cases m <;> decide

theorem modesNumber_mem_legalNumbers (high : Nat) (args : List (ArgKind × Arg)) :
    modesNumber high (args.map (·.2.mode)) ∈ legalNumbers (args.map (·.1)) ↔
      args.all (fun x => !(x.1 == .produced && x.2.mode == .immediate)) = true ∧ high = 0 := by
  induction args with
  | nil => simp [modesNumber, legalNumbers]
  | cons x xs ih =>
    have hdigit : ∀ d ∈ legalDigits x.1, d < 10 := by cases x.1 <;> decide
    have hm := x.2.mode.digit_le
    rw [List.all_cons, Bool.and_eq_true, and_assoc, ← ih, ← digit_mem_legalDigits]
    simp only [List.map_cons, modesNumber, legalNumbers, List.mem_flatMap, List.mem_map]
    constructor
    · rintro ⟨number, hn, d, hd, he⟩
      have := hdigit d hd
      obtain ⟨rfl, rfl⟩ : d = x.2.mode.digit ∧ number = modesNumber high (xs.map (·.2.mode)) := by omega
      exact ⟨hd, hn⟩
    · exact fun ⟨hd, hn⟩ => ⟨_, hn, _, hd, rfl⟩

/-- The legal canonical words of an opcode whose arguments have the kinds. -/
def legalWords (opcode : Nat) (kinds : List ArgKind) : List Int :=
  (legalNumbers kinds).map fun number => ((opcode + 100 * number : Nat) : Int)

/-- The canonical words of legal instructions, from the mode digits up (R70). -/
theorem word_mem_legalWords_iff (i : Instr) :
    i.word ∈ legalWords i.opcode (i.args.map (·.1)) ↔ i.legal = true ∧ i.high = 0 := by
  have hinj : Function.Injective fun number : Nat => ((i.opcode + 100 * number : Nat) : Int) := fun m n h => by
    simp only at h; omega
  rw [Instr.legal, ← modesNumber_mem_legalNumbers]
  exact List.mem_map_of_injective hinj

/-! ### The unexamined digits (R69) -/

/-- The instruction with another number in its unexamined digits. -/
def Instr.withHigh : Instr → Nat → Instr
  | .add a b dest _, high => .add a b dest high
  | .mul a b dest _, high => .mul a b dest high
  | .input dest _, high => .input dest high
  | .output a _, high => .output a high
  | .jumpIfTrue a b _, high => .jumpIfTrue a b high
  | .jumpIfFalse a b _, high => .jumpIfFalse a b high
  | .lessThan a b dest _, high => .lessThan a b dest high
  | .equals a b dest _, high => .equals a b dest high
  | .adjustRelativeBase a _, high => .adjustRelativeBase a high
  | .halt _, high => .halt high

@[simp] theorem Instr.withHigh_opcode (i : Instr) (high : Nat) : (i.withHigh high).opcode = i.opcode := by cases i <;> rfl

@[simp] theorem Instr.withHigh_args (i : Instr) (high : Nat) : (i.withHigh high).args = i.args := by cases i <;> rfl

@[simp] theorem Instr.withHigh_argc (i : Instr) (high : Nat) : (i.withHigh high).argc = i.argc := by simp [Instr.argc]

@[simp] theorem Instr.withHigh_high (i : Instr) (high : Nat) : (i.withHigh high).high = high := by cases i <;> rfl

theorem Instr.word_withHigh_add (i : Instr) (k : Nat) :
    (i.withHigh (i.high + k)).word = i.word + ((k * 10 ^ (2 + i.argc) : Nat) : Int) := by
  have hlen : (i.args.map (·.2.mode)).length = i.argc := List.length_map _
  rw [Instr.word, withHigh_opcode, withHigh_args, withHigh_high, modesNumber_add, hlen, Instr.word, ← Nat.cast_add, pow_add]
  congr 1
  ring

theorem Instr.mode_ne_immediate_of_legal {i : Instr} (h : i.legal = true) {x : Arg} (hx : (.produced, x) ∈ i.args) :
    x.mode ≠ .immediate := by
  simpa using List.all_eq_true.mp h _ hx

end Sys2Proof

namespace Sys2Proof.Machine

/-- Only the fault of an Immediate target records the instruction word. -/
theorem resolveTarget_eq_of_ne_immediate (s : State) {x : Arg} (hx : x.mode ≠ .immediate) (w w' : Int) (n : Nat) :
    resolveTarget s x w n = resolveTarget s x w' n := by
  unfold resolveTarget
  cases hm : x.mode with
  | immediate => exact absurd hm hx
  | positional | relative => rfl

theorem storeBinary_eq_of_ne_immediate (f : Int → Int → Except Cause Int) {dest : Arg} (hd : dest.mode ≠ .immediate)
    (w w' : Int) (a b : Arg) (s : State) : storeBinary f w a b dest s = storeBinary f w' a b dest s := by
  simp only [storeBinary, resolveTarget_eq_of_ne_immediate s hd w w']

theorem inputOperands_eq_of_ne_immediate {dest : Arg} (hd : dest.mode ≠ .immediate) (w w' : Int) (s : State) :
    inputOperands w dest s = inputOperands w' dest s := by
  simp only [inputOperands, resolveTarget_eq_of_ne_immediate s hd w w']

theorem exec_withHigh {i : Instr} (h : i.legal = true) (high : Nat) (s : State) : exec (i.withHigh high) s = exec i s := by
  have hdest {x : Arg} (hx : (.produced, x) ∈ i.args) := Instr.mode_ne_immediate_of_legal h hx
  cases i with
  | add a b dest _ | mul a b dest _ | lessThan a b dest _ | equals a b dest _ =>
    exact congrArg (finish s) (storeBinary_eq_of_ne_immediate _ (hdest (by simp [Instr.args])) _ _ a b s)
  | input dest _ =>
    simp only [Instr.withHigh, exec, execInput]
    rw [inputOperands_eq_of_ne_immediate (hdest (by simp [Instr.args]))]
  | _ => rfl

/-! ### An Immediate target (R68) -/

theorem resolveTarget_of_immediate (s : State) {x : Arg} (hx : x.mode = .immediate) (w : Int) (n : Nat) :
    resolveTarget s x w n = .error (.immediateWriteTarget w n) := by
  rw [resolveTarget, hx]

/-- ADD, MUL, LT and EQ compute a word from two values and store it at their argument 2 (R62, R113). -/
theorem exec_eq_storeBinary {i : Instr} {a b dest : Arg} {h : Nat}
    (hi : i = .add a b dest h ∨ i = .mul a b dest h ∨ i = .lessThan a b dest h ∨ i = .equals a b dest h) (s : State) :
    ∃ f, exec i s = finish s (storeBinary f i.word a b dest s) := by
  obtain rfl | rfl | rfl | rfl := hi <;> exact ⟨_, rfl⟩

/-! ### Words stored at the program counter (R60, R90) -/

theorem read_withWordsAtPc (s : State) (ws : List Int) {n : Nat} (hn : n < ws.length) :
    (s.withWordsAtPc ws).mem.read (s.pc.toNat + n) = ws.getD n 0 := by
  rw [State.withWordsAtPc, State.setStatus_mem, State.setMem_mem, Memory.read_writeWords, if_neg (by omega), if_pos (by omega),
    Nat.add_sub_cancel_left]

/-- An instruction whose words stand at the program counter is the one the next step runs. -/
theorem step_withWordsAtPc {s : State} (h0 : 0 ≤ s.pc) {ws rest : List Int} {i : Instr} (h : decode ws = .ok (i, rest)) :
    step (s.withWordsAtPc ws) = exec i (s.withWordsAtPc ws) := by
  cases ws with
  | nil => cases h
  | cons w vs =>
    obtain ⟨hd, hle, -⟩ := (decode_cons_eq_ok_iff w vs i rest).mp h
    obtain ⟨hw, hraw⟩ := (decodeWith_eq_ok_iff _ _ _).mp hd
    refine step_of_decodeWith_ok rfl h0 ((decodeWith_eq_ok_iff _ _ _).mpr ⟨?_, ?_⟩)
    · exact hw.trans (read_withWordsAtPc s (w :: vs) (Nat.succ_pos _)).symm
    · rw [hraw]
      refine List.map_congr_left fun n hn => ?_
      have hlt : n + 1 < (w :: vs).length := by have := List.mem_range.mp hn; simp only [List.length_cons]; omega
      have haddr : ((s.withWordsAtPc (w :: vs)).pc + n + 1).toNat = s.pc.toNat + (n + 1) := by
        show (s.pc + n + 1).toNat = _
        omega
      rw [rawWord, haddr, read_withWordsAtPc s _ hlt, List.getD_cons_succ]

theorem decode_of_decodeTableWord {nbits w : Nat} {i : Instr} (h : decodeTableWord nbits w = some i) :
    ∃ rest, decode (tableWords nbits w) = .ok (i, rest) := by
  unfold decodeTableWord at h
  split at h
  · next j rest hd => cases h; exact ⟨rest, hd⟩
  · cases h

end Sys2Proof.Machine

/-! ### The statements -/

namespace Sys2Proof.Machine

/-- Settles O7: the words of an instruction have its fields, and these are what the decoder reads. -/
theorem decodeEncodeRoundTrip : Obligations.DecodeEncodeRoundTrip := fun i rest =>
  (decode_eq_ok_iff _ i rest).mpr rfl

/-- Settles O8: the fields that the decoder reads make up the whole word, the unexamined digits among them. -/
theorem encodeDecodeRoundTrip : Obligations.EncodeDecodeRoundTrip := fun ws i rest =>
  (decode_eq_ok_iff ws i rest).mp

/-- Settles O10: each sequence is the encoding of the instruction beside it. -/
theorem specExampleWordsDecode : Obligations.SpecExampleWordsDecode := by
  refine ⟨?_, ?_, ?_, ?_, ?_, ?_, ?_, ?_, ?_, ?_⟩ <;> exact (decode_eq_ok_iff _ _ _).mpr rfl

/-- Settles O9: the fields of the word are those of the instruction, whose kinds its opcode fixes. -/
theorem digitsSelectOpcodeAndModes : Obligations.DigitsSelectOpcodeAndModes := by
  intro w raw i h
  obtain ⟨h0, hop, hargs⟩ := fields_of_decodeWith h
  refine ⟨h0, hop, ?_, fun n k x hx => ?_⟩
  · rw [← hop]; cases i <;> rfl
  · obtain ⟨hdigit, hraw⟩ := hargs n _ hx
    rw [hdigit]
    refine ⟨hraw, ?_⟩
    cases x.mode <;> simp [Mode.digit]

/-- Settles O11: each row is the list of the legal words of the opcode's format. The opcode is evaluated first, so that the
two lists are compared on numerals. -/
theorem legalCanonicalWordsAreTheTable : Obligations.LegalCanonicalWordsAreTheTable := by
  intro i
  rw [← word_mem_legalWords_iff]
  cases i with
  | _ => simp only [Instr.opcode, Instr.args, List.map_cons, List.map_nil]; exact Iff.rfl

/-- Settles O12: the changed word is that of the instruction with another number in its unexamined digits. -/
theorem unexaminedDigitsDoNotMatter : Obligations.UnexaminedDigitsDoNotMatter := by
  intro w k raw i h
  obtain ⟨hw, hraw⟩ := (decodeWith_eq_ok_iff _ _ _).mp h
  refine ⟨i.withHigh (i.high + k), (decodeWith_eq_ok_iff _ _ _).mpr ⟨?_, ?_⟩, i.withHigh_opcode _, i.withHigh_args _,
    fun hl s => exec_withHigh hl _ s⟩
  · rw [i.word_withHigh_add, hw, Nat.cast_add]
  · rw [i.withHigh_args, i.withHigh_argc, hraw]

/-- Settles O13: the step records what the decoder answers. -/
theorem illegalOpcodeFaultsExactly : Obligations.IllegalOpcodeFaultsExactly := fun _ _ hs h0 h w =>
  (step_records_decodeFault_iff hs h0 h (.illegalOpcode w)).trans (decodeWith_eq_illegalOpcode_iff _ _ w)

/-- Settles O14: the step records what the decoder answers, which is the first bad mode digit. -/
theorem illegalModeFaultsExactly : Obligations.IllegalModeFaultsExactly := by
  intro s t hs h0 h w n
  refine ((step_records_decodeFault_iff hs h0 h (.illegalMode w n)).trans (decodeWith_eq_illegalMode_iff _ _ w n)).trans ?_
  exact and_congr_right fun _ => and_congr_right fun hw => firstBadMode_zero_iff hw _ n

/-- Settles O19: the target is resolved last, and an Immediate one always faults. -/
theorem immediateWriteTargetFaults : Obligations.ImmediateWriteTargetFaults := by
  refine ⟨fun i a b dest h s hi hm hp => ?_, fun dest h s hm hp => ?_, fun s c hs hf => ?_⟩
  · obtain ⟨f, hexec⟩ := exec_eq_storeBinary hi s
    have htarget := resolveTarget_of_immediate s hm i.word 2
    have faults {c : Cause} (hc : storeBinary f i.word a b dest s = .error c) : exec i s = .next (raise c s) := by
      rw [hexec, hc, finish_error]
    refine ⟨fun x y hx hy => faults ?_, fun c hx => faults ?_, fun x c hx hy => faults ?_⟩ <;>
      rw [storeBinary_eq_error]
    · exact .inr ⟨hp, .inr ⟨x, hx, .inr ⟨y, hy, .inl htarget⟩⟩⟩
    · exact .inr ⟨hp, .inl hx⟩
    · exact .inr ⟨hp, .inr ⟨x, hx, .inl hy⟩⟩
  · have htarget := resolveTarget_of_immediate s hm (Instr.input dest h).word 0
    rw [exec, execInput, (inputOperands_eq_error _ _ _ _).mpr (.inr ⟨hp, htarget⟩)]
    rfl
  · rw [step_of_running s hs, hf]
    rfl

/-- Settles O49: the words of the table string stand at the program counter. -/
theorem tableWordRunsNext : Obligations.TableWordRunsNext := by
  intro s nbits w i h0 h
  obtain ⟨rest, hd⟩ := decode_of_decodeTableWord h
  exact step_withWordsAtPc h0 hd

end Sys2Proof.Machine

/-!
PROOFS. The statements of 40_step_and_operands.md: what an argument resolves to and which bad one is reported, what one step
does, and how a run ends. First the laws they share, then the statements.
-/

/-! ### What an argument resolves to (R94, R95, R96) -/

namespace Sys2Proof.Machine

theorem relativeAddress_of_isWord {s : State} {raw : Int} (h : s.cfg.isWord (s.rb + raw) = true) :
    relativeAddress s raw = .ok (s.rb + raw) :=
  (checkWord_eq_ok _ _ _).mpr ⟨h, rfl⟩

theorem relativeAddress_of_not_isWord {s : State} {raw : Int} (h : s.cfg.isWord (s.rb + raw) = false) :
    relativeAddress s raw = .error (.overflow (s.rb + raw)) :=
  (checkWord_eq_error _ _ _).mpr ⟨h, rfl⟩

theorem resolveValue_relative_of_isWord {s : State} {raw : Int} (h : s.cfg.isWord (s.rb + raw) = true) :
    resolveValue s ⟨.relative, raw⟩ = memRead s.mem (s.rb + raw) := by
  rw [resolveValue, relativeAddress_of_isWord h, ok_bind_eq]

theorem resolveTarget_relative_of_isWord {s : State} {raw : Int} (h : s.cfg.isWord (s.rb + raw) = true) (w : Int) (n : Nat) :
    resolveTarget s ⟨.relative, raw⟩ w n = targetAddress (s.rb + raw) := by
  rw [resolveTarget, relativeAddress_of_isWord h, ok_bind_eq]

/-! ### The phases before an instruction's own effect (R93, R96) -/

/-- Argument `n` of the instruction word `w`, resolved as its kind says (R94, R95). -/
def resolveArg (s : State) (w : Int) (n : Nat) : ArgKind → Arg → Except Cause Int
  | .consumed, x => resolveValue s x
  | .produced, x => resolveTarget s x w n

/-- Resolves arguments of the instruction word `w` in ascending order, the first of the list being its argument `n` (R96). -/
def resolveArgs (s : State) (w : Int) : Nat → List (ArgKind × Arg) → Except Cause Unit
  | _, [] => .ok ()
  | n, (k, x) :: rest => do
    let _ ← resolveArg s w n k x
    resolveArgs s w (n + 1) rest

/-- What every instruction goes through before its own effect: the extent check, then its arguments. -/
def checkOperands (s : State) (w : Int) (args : List (ArgKind × Arg)) : Except Cause Unit := do
  let _ ← fallThrough s args.length
  resolveArgs s w 0 args

/-- Two sequences that begin with the same operation fault alike, if the one faults whenever the rest of the other does. -/
theorem bind_eq_error_of_prefix {ε α β γ : Type} {x : Except ε α} {y : Except ε β} {f : α → Except ε γ} {e : ε}
    (h : (x >>= fun _ => y) = .error e) (hf : ∀ a, y = .error e → f a = .error e) : (x >>= f) = .error e := by
  obtain hx | ⟨a, hx, hy⟩ := (bind_eq_error _ _ _).mp h
  · exact (bind_eq_error _ _ _).mpr (.inl hx)
  · exact (bind_eq_error _ _ _).mpr (.inr ⟨a, hx, hf a hy⟩)

theorem storeBinary_of_checkOperands_error {s : State} {w : Int} {a b dest : Arg} {c : Cause}
    (h : checkOperands s w [(.consumed, a), (.consumed, b), (.produced, dest)] = .error c)
    (f : Int → Int → Except Cause Int) : storeBinary f w a b dest s = .error c :=
  bind_eq_error_of_prefix h fun _ h => bind_eq_error_of_prefix h fun _ h => bind_eq_error_of_prefix h fun _ h =>
    bind_eq_error_of_prefix h fun _ => nofun

theorem jumpWhen_of_checkOperands_error {s : State} {w : Int} {a b : Arg} {c : Cause}
    (h : checkOperands s w [(.consumed, a), (.consumed, b)] = .error c) (test : Int → Bool) :
    jumpWhen test a b s = .error c :=
  bind_eq_error_of_prefix h fun _ h => bind_eq_error_of_prefix h fun _ h => bind_eq_error_of_prefix h fun _ => nofun

theorem inputOperands_of_checkOperands_error {s : State} {w : Int} {dest : Arg} {c : Cause}
    (h : checkOperands s w [(.produced, dest)] = .error c) : inputOperands w dest s = .error c :=
  bind_eq_error_of_prefix h fun _ h => bind_eq_error_of_prefix h fun _ => nofun

theorem outputOperands_of_checkOperands_error {s : State} {w : Int} {a : Arg} {c : Cause}
    (h : checkOperands s w [(.consumed, a)] = .error c) : outputOperands a s = .error c :=
  bind_eq_error_of_prefix h fun _ h => bind_eq_error_of_prefix h fun _ => nofun

theorem adjustBase_of_checkOperands_error {s : State} {w : Int} {a : Arg} {c : Cause}
    (h : checkOperands s w [(.consumed, a)] = .error c) : adjustBase a s = .error c :=
  bind_eq_error_of_prefix h fun _ h => bind_eq_error_of_prefix h fun _ => nofun

theorem haltState_of_checkOperands_error {s : State} {w : Int} {c : Cause} (h : checkOperands s w [] = .error c) :
    haltState s = .error c :=
  bind_eq_error_of_prefix h fun _ => nofun

/-- A fault of the phases before the instruction's own effect is the fault of the step, for every instruction (R93, R96). -/
theorem exec_of_checkOperands_error {i : Instr} {s : State} {c : Cause} (h : checkOperands s i.word i.args = .error c) :
    exec i s = .next (raise c s) := by
  cases i with
  | add | mul | lessThan | equals => exact congrArg (finish s) (storeBinary_of_checkOperands_error h _)
  | jumpIfTrue | jumpIfFalse => exact congrArg (finish s) (jumpWhen_of_checkOperands_error h _)
  | input => rw [exec, execInput, inputOperands_of_checkOperands_error h]
  | output => rw [exec, execOutput, outputOperands_of_checkOperands_error h]
  | adjustRelativeBase => exact congrArg (finish s) (adjustBase_of_checkOperands_error h)
  | halt => exact congrArg (finish s) (haltState_of_checkOperands_error h)

/-- The first argument that cannot be resolved decides the fault, whatever number the list starts with. -/
theorem resolveArgs_of_first_error {s : State} {w : Int} {args : List (ArgKind × Arg)} {first n : Nat} {k : ArgKind}
    {x : Arg} {c : Cause} (hn : args[n]? = some (k, x))
    (hbefore : ∀ m k' x', m < n → args[m]? = some (k', x') → ∃ v, resolveArg s w (first + m) k' x' = .ok v)
    (hx : resolveArg s w (first + n) k x = .error c) : resolveArgs s w first args = .error c := by
  induction args generalizing first n with
  | nil => cases hn
  | cons y rest ih =>
    cases n with
    | zero => cases hn; exact (bind_eq_error _ _ _).mpr (.inl hx)
    | succ n =>
      obtain ⟨v, hv⟩ := hbefore 0 y.1 y.2 n.succ_pos rfl
      have shift (m : Nat) : first + (m + 1) = first + 1 + m := by omega
      refine (bind_eq_error _ _ _).mpr (.inr ⟨v, hv, ih hn (fun m k' x' hm hx' => ?_) (shift n ▸ hx)⟩)
      exact shift m ▸ hbefore (m + 1) k' x' (Nat.succ_lt_succ hm) hx'

theorem checkOperands_of_extent {s : State} {i : Instr} (h : s.cfg.wordMax < s.pc + 1 + i.argc) :
    checkOperands s i.word i.args = .error (.overflow (s.pc + 1 + i.argc)) :=
  (bind_eq_error _ _ _).mpr (.inl ((fallThrough_eq_error _ _ _).mpr ⟨h, rfl⟩))

theorem checkOperands_of_resolveArgs_error {s : State} {i : Instr} {c : Cause}
    (hp : s.pc + 1 + i.argc ≤ s.cfg.wordMax) (h : resolveArgs s i.word 0 i.args = .error c) :
    checkOperands s i.word i.args = .error c :=
  (bind_eq_error _ _ _).mpr (.inr ⟨_, (fallThrough_eq_ok _ _ _).mpr ⟨hp, rfl⟩, h⟩)

/-- An argument that is not the last is Consumed (R62). -/
theorem kind_eq_consumed_of_succ_lt_argc {i : Instr} {m : Nat} {k : ArgKind} {x : Arg} (hm : i.args[m]? = some (k, x))
    (hlast : m + 1 < i.argc) : k = .consumed := by
  cases i with
  | add a b dest _ | mul a b dest _ | lessThan a b dest _ | equals a b dest _ =>
    match m with
    | 0 | 1 => cases hm; rfl
    | m + 2 => change m + 3 < 3 at hlast; omega
  | jumpIfTrue a b _ | jumpIfFalse a b _ =>
    match m with
    | 0 => cases hm; rfl
    | m + 1 => change m + 2 < 2 at hlast; omega
  | input | output | adjustRelativeBase | halt => simp [Instr.argc, Instr.args] at hlast

/-! ### A step of an engine (R91, R92, R98, R99) -/

theorem fetchDecode_of_pc_neg {s : State} (h : s.pc < 0) : fetchDecode s = .error (.negativeAddress s.pc) :=
  (bind_eq_error _ _ _).mpr (.inl ((memRead_eq_error _ _ _).mpr ⟨h, rfl⟩))

/-- The fetch sees memory and the program counter alone. -/
theorem fetchDecode_congr {s t : State} (hm : t.mem = s.mem) (hpc : t.pc = s.pc) : fetchDecode t = fetchDecode s := by
  have hraw : rawWord t = rawWord s := by funext n; rw [rawWord, rawWord, hm, hpc]
  rw [fetchDecode, fetchDecode, hm, hpc, hraw]

/-- The words at the program counter that decode to an instruction are those that the fetch reads (R60, R92). -/
theorem fetchDecode_of_decode {s : State} {ws rest : List Int} {i : Instr} (h0 : 0 ≤ s.pc)
    (hws : ∀ (k : Nat) (v : Int), ws[k]? = some v → s.mem.read (s.pc + k).toNat = v) (h : decode ws = .ok (i, rest)) :
    fetchDecode s = .ok i := by
  cases ws with
  | nil => cases h
  | cons w vs =>
    obtain ⟨hd, hle, -⟩ := (decode_cons_eq_ok_iff w vs i rest).mp h
    obtain ⟨hw, hraw⟩ := (decodeWith_eq_ok_iff _ _ _).mp hd
    refine (fetchDecode_eq_ok s i).mpr ⟨h0, (decodeWith_eq_ok_iff _ _ _).mpr ⟨?_, hraw.trans ?_⟩⟩
    · have hread := hws 0 w rfl
      rw [Nat.cast_zero, add_zero] at hread
      rw [hw, hread]
    · refine List.map_congr_left fun n hn => ?_
      have hlt : n < vs.length := (List.mem_range.mp hn).trans_le hle
      have hread := hws (n + 1) (vs.getD n 0) (by simp [hlt])
      rw [rawWord, add_assoc, ← hread, Nat.cast_succ]

theorem step_of_fetchDecode_ok {s : State} {i : Instr} (hs : s.status = .running) (h : fetchDecode s = .ok i) :
    step s = exec i s := by
  rw [step_of_running s hs, h]

theorem step_of_ended {s : State} (hs : s.ended) : step s = .next s := by
  obtain ⟨-, ht⟩ | ⟨hrun, -⟩ := step_cases s _ (step_eq_hostStep s)
  · rw [step_eq_hostStep, ht]
  · exact absurd hrun hs

/-- A step from Running to Faulted has taken the fault and done nothing else (R172). -/
theorem eq_raise_of_step_faulted {s t : State} {c : Cause} (hs : s.status = .running) (h : step s = .next t)
    (ht : t.status = .faulted c) : t = raise c s := by
  obtain hst | ⟨c', rfl⟩ | ⟨hst, -⟩ := step_status_eq h
  · cases ht.symm.trans (hst.trans hs)
  · cases ht; rfl
  · cases ht.symm.trans hst

/-- A Halt that does not fault makes the engine Halted and passes to the next word (R160). -/
theorem Effect.eq_of_halt {s t : State} {high : Nat} (he : Effect s (.halt high) t) (ht : t.status = .halted) :
    t = (s.setStatus .halted).setPc (s.pc + 1) := by
  cases he with
  | fault => cases ht
  | store _ _ hst => cases hst
  | jump _ _ _ hj => cases hj
  | halt => rfl

theorem step_halt_of_halted {s t : State} (hs : s.status = .running) (h : step s = .next t) (ht : t.status = .halted) :
    ∃ high, fetchDecode s = .ok (.halt high) ∧ t = (s.setStatus .halted).setPc (s.pc + 1) := by
  obtain hst | ⟨c, rfl⟩ | ⟨-, -, high, hi⟩ := step_status_eq h
  · cases ht.symm.trans (hst.trans hs)
  · cases ht
  · rw [step_of_fetchDecode_ok hs hi] at h
    exact ⟨high, hi, (effect_of_exec h).eq_of_halt ht⟩

theorem exec_input_of_stall {s : State} {dest : Arg} {h : Nat} {d : Int} (hp : s.pc + 2 ≤ s.cfg.wordMax)
    (hd : resolveTarget s dest (Instr.input dest h).word 0 = .ok d) (hr : requestInput s = .stall) :
    exec (.input dest h) s = .next s.waitInput := by
  rw [exec, execInput, (inputOperands_eq_ok _ _ _ _).mpr ⟨d, hp, hd, rfl⟩]
  simp only [inputAt, hr]

theorem exec_output_of_stall {s : State} {a : Arg} {h : Nat} {x : Int} (hp : s.pc + 2 ≤ s.cfg.wordMax)
    (hx : resolveValue s a = .ok x) (hr : deliverOutput s = .stall) : exec (.output a h) s = .next s.waitOutput := by
  rw [exec, execOutput, (outputOperands_eq_ok _ _ _).mpr ⟨x, hp, hx, rfl⟩]
  simp only [outputAt, hr]

theorem State.waitInput_of_script_nil {s : State} (h : s.input.script = []) : s.waitInput = s := by
  rw [State.waitInput, h, List.tail_nil, ← h]

/-! ### Runs (R99, R100) -/

theorem State.ended_iff (s : State) : s.ended ↔ s.status = .halted ∨ ∃ c, s.status = .faulted c := by
  unfold State.ended
  cases s.status <;> simp

theorem runFor_of_ended {s : State} (hs : s.ended) (n : Nat) : runFor n s = s :=
  runFor_keeps (P := (· = s)) (fun _ _ h hu => by subst hu; rw [step_of_ended hs] at h; cases h; rfl) n rfl

theorem runReturns_self {s : State} (hs : s.ended) : RunReturns s s :=
  ⟨0, rfl, hs, fun _ h => absurd h (Nat.not_lt_zero _)⟩

/-- While the engine is Running, `run()` is a step and then `run()` (R100). -/
theorem runReturns_iff_of_running {s t : State} (hs : s.status = .running) :
    RunReturns s t ↔ RunReturns (hostStep s) t := by
  constructor
  · rintro ⟨n, rfl, ht, hrun⟩
    cases n with
    | zero => exact absurd hs ht
    | succ n => exact ⟨n, rfl, ht, fun k hk => hrun (k + 1) (Nat.succ_lt_succ hk)⟩
  · rintro ⟨n, rfl, ht, hrun⟩
    refine ⟨n + 1, rfl, ht, fun k hk => ?_⟩
    cases k with
    | zero => exact hs
    | succ k => exact hrun k (Nat.lt_of_succ_lt_succ hk)

/-- Steps beyond the end of a run change nothing, so any number of steps that ends it leads to what `run()` returns. -/
theorem runReturns_iff (s t : State) : RunReturns s t ↔ ∃ n, runFor n s = t ∧ t.ended := by
  constructor
  · rintro ⟨n, hn, ht, -⟩; exact ⟨n, hn, ht⟩
  · rintro ⟨n, rfl, ht⟩
    induction n generalizing s with
    | zero => exact runReturns_self ht
    | succ n ih =>
      by_cases hs : s.status = .running
      · exact (runReturns_iff_of_running hs).mpr (ih (hostStep s) ht)
      · rw [runFor_of_ended hs]; exact runReturns_self hs

theorem runFor_eq_of_ended {s : State} {m n : Nat} (hle : m ≤ n) (hm : (runFor m s).ended) : runFor n s = runFor m s := by
  rw [← Nat.add_sub_cancel' hle, runFor_add, runFor_of_ended hm]

theorem RunReturns.unique {s t u : State} (ht : RunReturns s t) (hu : RunReturns s u) : t = u := by
  obtain ⟨m, rfl, ht, -⟩ := ht
  obtain ⟨n, rfl, hu, -⟩ := hu
  obtain hle | hle := le_total m n
  · exact (runFor_eq_of_ended hle ht).symm
  · exact runFor_eq_of_ended hle hu

theorem RunReturns.halted_or_faulted {s t : State} (h : RunReturns s t) :
    t.status = .halted ∨ ∃ c, t.status = .faulted c := by
  obtain ⟨n, -, ht, -⟩ := h
  exact t.ended_iff.mp ht

/-- A run from a Running engine that returns has a last step, from a Running engine. -/
theorem RunReturns.last_step {s t : State} (h : RunReturns s t) (hs : s.status = .running) :
    ∃ u, Reaches s u ∧ u.status = .running ∧ step u = .next t := by
  obtain ⟨n, rfl, ht, hrun⟩ := h
  cases n with
  | zero => exact absurd hs ht
  | succ n =>
    refine ⟨runFor n s, ⟨n, rfl⟩, hrun n n.lt_succ_self, ?_⟩
    rw [step_eq_hostStep, runFor_add]
    rfl

/-! ### The statements -/

/-- Settles O17: the extent check is the first of the phases that every instruction goes through. -/
theorem extentOverflowFaultsEveryInstruction : Obligations.ExtentOverflowFaultsEveryInstruction := fun _ _ h =>
  exec_of_checkOperands_error (checkOperands_of_extent h)

/-- Settles O18: the arguments are resolved in ascending order, and those before another are Consumed. -/
theorem firstBadArgumentIsReported : Obligations.FirstBadArgumentIsReported := by
  intro i s n k x c hp hn hbefore hconsumed hproduced
  have hlt : n < i.argc := (List.getElem?_eq_some_iff.mp hn).1
  refine exec_of_checkOperands_error (checkOperands_of_resolveArgs_error hp (resolveArgs_of_first_error hn ?_ ?_))
  · intro m k' x' hm hx'
    obtain rfl := kind_eq_consumed_of_succ_lt_argc hx' (by omega)
    exact hbefore m _ x' hm hx'
  · rw [Nat.zero_add]
    cases k with
    | consumed => exact hconsumed rfl
    | produced => exact hproduced rfl

/-- Settles O38: of what can change the status, only the fault taken leads from Running to Faulted. -/
theorem faultIsPrecise : Obligations.FaultIsPrecise := fun _ _ _ hs h ht =>
  eq_raise_of_step_faulted hs h ht

/-- Settles O43: a stall takes the environment's answer off its script, and the fetch does not see the script. -/
theorem stalledStepIsRetried : Obligations.StalledStepIsRetried := by
  refine fun s hs => ⟨fun dest h d hi hp hd hr => ?_, fun a h x hi hp hx hr => ?_⟩
  · have hstep := (step_of_fetchDecode_ok hs hi).trans (exec_input_of_stall hp hd hr)
    exact ⟨s.waitInput, hstep, rfl, rfl, rfl, rfl, rfl, rfl, (fetchDecode_congr rfl rfl).trans hi,
      State.waitInput_of_script_nil⟩
  · have hstep := (step_of_fetchDecode_ok hs hi).trans (exec_output_of_stall hp hx hr)
    exact ⟨s.waitOutput, hstep, rfl, rfl, rfl, rfl, rfl, rfl, (fetchDecode_congr rfl rfl).trans hi⟩

/-- Settles O46, by induction on the number of steps: each one unfolds the loop once, until the engine has ended. -/
theorem runReturnsWhenEnded : Obligations.RunReturnsWhenEnded := by
  refine ⟨runReturns_iff, fun s t hs => runReturns_iff_of_running hs, fun s t hs => ⟨fun h => ?_, ?_⟩,
    fun s t => RunReturns.halted_or_faulted, fun s t u => RunReturns.unique, fun s => ?_⟩
  · exact h.unique (runReturns_self hs)
  · rintro rfl; exact runReturns_self hs
  · simp only [runReturns_iff]
    exact ⟨fun ⟨t, n, hn, ht⟩ => ⟨n, hn ▸ ht⟩, fun ⟨n, hn⟩ => ⟨_, n, rfl, hn⟩⟩

/-- Settles O47: the last step ends the run, so it is a fault taken or a Halt. -/
theorem safeRunEndsWell : Obligations.SafeRunEndsWell := by
  refine ⟨fun s t hs h => ?_, fun s t hsafe h => ?_⟩
  · obtain ⟨u, hreach, hu, hstep⟩ := h.last_step hs
    refine ⟨u, hreach, hu, hstep, fun c hc => eq_raise_of_step_faulted hu hstep hc, fun hsafe => ?_⟩
    obtain ht | ⟨c, hc⟩ := h.halted_or_faulted
    · exact step_halt_of_halted hu hstep ht
    · exact absurd hc (hsafe c)
  · obtain ht | ⟨c, hc⟩ := h.halted_or_faulted
    · exact ht
    · obtain ⟨n, hn, -⟩ := h
      exact absurd hc (hsafe t c ⟨n, hn⟩)

/-- Settles O15: a Positional argument reads at its raw word, and a Relative one at the sum, if that is a word. -/
theorem consumedArgumentValue : Obligations.ConsumedArgumentValue := by
  refine fun s raw => ⟨rfl, fun h0 => ?_, fun h0 => ?_, fun hw => ?_, fun hw h0 => ?_, fun hw h0 => ?_⟩
  · exact (memRead_eq_ok _ _ _).mpr ⟨h0, rfl⟩
  · exact (memRead_eq_error _ _ _).mpr ⟨h0, rfl⟩
  · rw [resolveValue, relativeAddress_of_not_isWord hw, error_bind_eq]
  · exact (resolveValue_relative_of_isWord hw).trans ((memRead_eq_ok _ _ _).mpr ⟨h0, rfl⟩)
  · exact (resolveValue_relative_of_isWord hw).trans ((memRead_eq_error _ _ _).mpr ⟨h0, rfl⟩)

/-- Settles O16: a Positional target is the raw word, and a Relative one the sum, if that is a word. -/
theorem producedArgumentAddress : Obligations.ProducedArgumentAddress := by
  refine fun s raw w n => ⟨rfl, fun h0 => ?_, fun h0 => ?_, fun hw => ?_, fun hw h0 => ?_, fun hw h0 => ?_⟩
  · exact (targetAddress_eq_ok _ _).mpr ⟨h0, rfl⟩
  · exact (targetAddress_eq_error _ _).mpr ⟨h0, rfl⟩
  · rw [resolveTarget, relativeAddress_of_not_isWord hw, error_bind_eq]
  · exact (resolveTarget_relative_of_isWord hw w n).trans ((targetAddress_eq_ok _ _).mpr ⟨h0, rfl⟩)
  · exact (resolveTarget_relative_of_isWord hw w n).trans ((targetAddress_eq_error _ _).mpr ⟨h0, rfl⟩)

/-- Settles O33: the fetch reads the words that decode to the instruction. -/
theorem stepRunsDecodedInstruction : Obligations.StepRunsDecodedInstruction := fun _ _ _ _ hs h0 hws h =>
  step_of_fetchDecode_ok hs (fetchDecode_of_decode h0 hws h)

/-- Settles O34: the fetch reads the memory at `pc`, and a read at a negative address faults. -/
theorem negativePcFaultsAtFetch : Obligations.NegativePcFaultsAtFetch := by
  intro s hs h
  rw [step_of_running s hs, fetchDecode_of_pc_neg h]
  rfl

/-- Settles O35: an ended engine is left as it is by a step, and so by any number of them. -/
theorem terminalStatusIsFinal : Obligations.TerminalStatusIsFinal := fun _ hs =>
  ⟨step_of_ended hs, runFor_of_ended hs, runReturns_self hs⟩

/-- Settles O36: what every effect and every fault leads to is a next state. -/
theorem everyStepAnswersNextState : Obligations.EveryStepAnswersNextState := fun s =>
  ⟨hostStep s, step_eq_hostStep s⟩

end Sys2Proof.Machine

/-!
PROOFS. The statements of 41_arithmetic.md: ADD and MUL. Both check a result formed in the integers and store it, so the law
they share is stated once, for any operation on two integers.
-/

namespace Sys2Proof.Machine

/-- Once the operands of format F3CCP are resolved, what is computed from the two values decides the outcome: the word is
stored and the engine passes on, or its cause is the fault (R90, R113). -/
theorem storeBinary_of_resolved (f : Int → Int → Except Cause Int) {w : Int} {a b dest : Arg} {s : State} {x y d : Int}
    (hp : s.pc + 4 ≤ s.cfg.wordMax) (hx : resolveValue s a = .ok x) (hy : resolveValue s b = .ok y)
    (hd : resolveTarget s dest w 2 = .ok d) :
    storeBinary f w a b dest s = (f x y).map fun v => (s.setMem (s.mem.write d.toNat v)).setPc (s.pc + 4) := by
  cases hv : f x y with
  | error c => exact (storeBinary_eq_error _ _ _ _ _ _ _).mpr (.inr ⟨hp, .inr ⟨x, hx, .inr ⟨y, hy, .inr ⟨d, hd, hv⟩⟩⟩⟩)
  | ok v => exact (storeBinary_eq_ok _ _ _ _ _ _ _).mpr ⟨x, y, d, v, hp, hx, hy, hd, hv, rfl⟩

/-- An operation on two integers whose result is checked stores a result that is a word, and faults on any other (R112). -/
theorem finish_storeBinary_checkWord (op : Int → Int → Int) {w : Int} {a b dest : Arg} {s : State} {x y d : Int}
    (hp : s.pc + 4 ≤ s.cfg.wordMax) (hx : resolveValue s a = .ok x) (hy : resolveValue s b = .ok y)
    (hd : resolveTarget s dest w 2 = .ok d) :
    (s.cfg.isWord (op x y) = true → finish s (storeBinary (fun x y => checkWord s.cfg (op x y)) w a b dest s) =
      .next { s with mem := s.mem.write d.toNat (op x y), pc := s.pc + 4 }) ∧
    (s.cfg.isWord (op x y) = false → finish s (storeBinary (fun x y => checkWord s.cfg (op x y)) w a b dest s) =
      .next { s with status := .faulted (.overflow (op x y)) }) := by
  rw [storeBinary_of_resolved _ hp hx hy hd]
  constructor <;> intro hword
  · rw [(checkWord_eq_ok _ _ _).mpr ⟨hword, rfl⟩]
    rfl
  · rw [(checkWord_eq_error _ _ _).mpr ⟨hword, rfl⟩]
    rfl

/-! ### The statements -/

/-- Settles O20: ADD is the checked operation `+`. -/
theorem addStoresSum : Obligations.AddStoresSum := fun _ _ _ _ _ _ _ _ =>
  finish_storeBinary_checkWord (· + ·)

/-- Settles O21: MUL is the checked operation `*`. -/
theorem mulStoresProduct : Obligations.MulStoresProduct := fun _ _ _ _ _ _ _ _ =>
  finish_storeBinary_checkWord (· * ·)

end Sys2Proof.Machine

/-!
PROOFS. The statements of 42_io.md: IN and OUT. One law for each answer of a port that is not a stall (for the stalls see
`exec_input_of_stall` and `exec_output_of_stall`); the statements then read the answer off the environment's script.
-/

namespace Sys2Proof.Machine

/-- IN with its target resolved and a word supplied: the word is stored and consumed, and the engine passes on (R120). -/
theorem exec_input_of_value {s : State} {dest : Arg} {h : Nat} {d v : Int} (hp : s.pc + 2 ≤ s.cfg.wordMax)
    (hd : resolveTarget s dest (Instr.input dest h).word 0 = .ok d) (hr : requestInput s = .value v) :
    exec (.input dest h) s = .next (((s.setMem (s.mem.write d.toNat v)).takeInput v).setPc (s.pc + 2)) := by
  rw [exec, execInput, (inputOperands_eq_ok _ _ _ _).mpr ⟨d, hp, hd, rfl⟩]
  simp only [inputAt, hr, memWrite_of_nonneg s.mem v (resolveTarget_nonneg _ _ _ _ _ hd)]
  rfl

/-- IN with its target resolved and no word to be had: the fault of R171, cause 6. -/
theorem exec_input_of_fail {s : State} {dest : Arg} {h : Nat} {d : Int} (hp : s.pc + 2 ≤ s.cfg.wordMax)
    (hd : resolveTarget s dest (Instr.input dest h).word 0 = .ok d) (hr : requestInput s = .fail) :
    exec (.input dest h) s = .next (raise (.inputFailure s.pc) s) := by
  rw [exec, execInput, (inputOperands_eq_ok _ _ _ _).mpr ⟨d, hp, hd, rfl⟩]
  simp only [inputAt, hr]

/-- OUT with its value resolved and taken: the value is delivered, and the engine passes on (R121). -/
theorem exec_output_of_done {s : State} {a : Arg} {h : Nat} {x : Int} (hp : s.pc + 2 ≤ s.cfg.wordMax)
    (hx : resolveValue s a = .ok x) (hr : deliverOutput s = .done) :
    exec (.output a h) s = .next ((s.putOutput x).setPc (s.pc + 2)) := by
  rw [exec, execOutput, (outputOperands_eq_ok _ _ _).mpr ⟨x, hp, hx, rfl⟩]
  simp only [outputAt, hr]

/-- The port's answer is the head of a script that is not used up (R32). -/
theorem deliverOutput_of_script_cons {s : State} {answer : OutputAnswer} {rest : List OutputAnswer}
    (h : s.output.script = answer :: rest) : deliverOutput s = answer := by
  rw [deliverOutput, h]

/-! ### The statements -/

/-- Settles O24: the head of the script, and whether a supplied datum is a word, say which answer the port gives. -/
theorem inputStoresSuppliedValue : Obligations.InputStoresSuppliedValue := by
  intro dest h s t rest hp ht
  refine ⟨fun v hin hword => ?value, fun v hin hword => ?noWord, fun hin => ?fail, fun hin => ?stall, fun hin => ?usedUp⟩
  case value =>
    rw [exec_input_of_value hp ht ((requestInput_eq_value s v).mpr ⟨hword, rest, hin⟩)]
    simp only [State.setMem, State.takeInput, State.setPc, hin, List.tail_cons]
  case noWord => exact exec_input_of_fail hp ht ((requestInput_eq_fail s).mpr ⟨_, rest, hin, .inr ⟨v, rfl, hword⟩⟩)
  case fail => exact exec_input_of_fail hp ht ((requestInput_eq_fail s).mpr ⟨_, rest, hin, .inl rfl⟩)
  case stall =>
    rw [exec_input_of_stall hp ht ((requestInput_eq_stall s).mpr (.inr ⟨rest, hin⟩)), State.waitInput, hin, List.tail_cons]
  case usedUp =>
    rw [exec_input_of_stall hp ht ((requestInput_eq_stall s).mpr (.inl hin)), State.waitInput_of_script_nil hin]

/-- Settles O25: a script that is used up takes the word, as the answer `done` does. -/
theorem outputDeliversValue : Obligations.OutputDeliversValue := by
  intro a h s x rest hp hx
  refine ⟨fun hout => ?done, fun hout => ?usedUp, fun hout => ?stall⟩
  case done =>
    rw [exec_output_of_done hp hx (deliverOutput_of_script_cons hout)]
    simp only [State.putOutput, State.setPc, hout, List.tail_cons]
  case usedUp =>
    rw [exec_output_of_done hp hx (by rw [deliverOutput, hout])]
    simp only [State.putOutput, State.setPc, hout, List.tail_nil]
  case stall =>
    rw [exec_output_of_stall hp hx (deliverOutput_of_script_cons hout), State.waitOutput, hout, List.tail_cons]

end Sys2Proof.Machine

/-!
PROOFS. The statements of 43_jumps.md: JT and JF. They differ in the test of the value alone, so what a jump of format F2CC
does is stated once, for any test.
-/

namespace Sys2Proof

/-- The two low digits of an instruction word are the opcode (R61). -/
theorem Instr.word_emod_hundred (i : Instr) : i.word % 100 = i.opcode := by
  have hop := i.opcode_lt
  rw [Instr.word]
  omega

end Sys2Proof

namespace Sys2Proof.Machine

/-- A negative value is true as well (R130). -/
theorem nonZero_of_ne_zero {x : Int} (h : x ≠ 0) : nonZero x = true := decide_eq_true h

@[simp] theorem nonZero_zero : nonZero 0 = false := rfl

/-- Once both arguments are resolved a jump completes, whatever its target: it sets the program counter (R132 e). -/
theorem finish_jumpWhen_of_resolved (test : Int → Bool) {a b : Arg} {s : State} {x y : Int}
    (hp : s.pc + 3 ≤ s.cfg.wordMax) (hx : resolveValue s a = .ok x) (hy : resolveValue s b = .ok y) :
    finish s (jumpWhen test a b s) = .next { s with pc := if test x then y else s.pc + 3 } := by
  rw [(jumpWhen_eq_ok _ _ _ _ _).mpr ⟨x, y, hp, hx, hy, rfl⟩]
  rfl

/-- A jump's outcome by phase: the extent check, either argument, then the test, which only chooses between the two next
program counters (R90, R130, R131). -/
theorem finish_jumpWhen_cases (test : Int → Bool) (a b : Arg) (s : State) :
    (s.cfg.wordMax < s.pc + 3 →
      finish s (jumpWhen test a b s) = .next { s with status := .faulted (.overflow (s.pc + 3)) }) ∧
    (s.pc + 3 ≤ s.cfg.wordMax →
      (∀ c, resolveValue s a = .error c → finish s (jumpWhen test a b s) = .next { s with status := .faulted c }) ∧
      (∀ x c, resolveValue s a = .ok x → resolveValue s b = .error c →
        finish s (jumpWhen test a b s) = .next { s with status := .faulted c }) ∧
      (∀ x y, resolveValue s a = .ok x → resolveValue s b = .ok y → test x = true →
        finish s (jumpWhen test a b s) = .next { s with pc := y }) ∧
      (∀ x y, resolveValue s a = .ok x → resolveValue s b = .ok y → test x = false →
        finish s (jumpWhen test a b s) = .next { s with pc := s.pc + 3 })) := by
  have faults {c : Cause} (h : jumpWhen test a b s = .error c) :
      finish s (jumpWhen test a b s) = .next { s with status := .faulted c } := by rw [h]; rfl
  refine ⟨fun hlong => faults ?extent, fun hp => ⟨fun c hx => faults ?condition, fun x c hx hy => faults ?target,
    fun x y hx hy htest => ?taken, fun x y hx hy htest => ?notTaken⟩⟩
  case extent => exact (jumpWhen_eq_error _ _ _ _ _).mpr (.inl ⟨hlong, rfl⟩)
  case condition => exact (jumpWhen_eq_error _ _ _ _ _).mpr (.inr ⟨hp, .inl hx⟩)
  case target => exact (jumpWhen_eq_error _ _ _ _ _).mpr (.inr ⟨hp, .inr ⟨x, hx, hy⟩⟩)
  case taken => rw [finish_jumpWhen_of_resolved test hp hx hy, if_pos htest]
  case notTaken => rw [finish_jumpWhen_of_resolved test hp hx hy, htest, if_neg Bool.false_ne_true]

/-! ### The statements -/

/-- Settles O26: the test of JT holds of every value but 0. The canonical words are JT's row of the table of R70. -/
theorem jumpIfTrueGoesToTarget : Obligations.JumpIfTrueGoesToTarget := by
  intro a b h
  refine ⟨Instr.word_emod_hundred _, rfl, (legalCanonicalWordsAreTheTable (.jumpIfTrue a b 0)).mp ⟨rfl, rfl⟩, fun s => ?_⟩
  obtain ⟨hextent, hphases⟩ := finish_jumpWhen_cases nonZero a b s
  refine ⟨hextent, fun hp => ?_⟩
  obtain ⟨hcondition, htarget, htaken, hfall⟩ := hphases hp
  exact ⟨hcondition, htarget, fun x y hx hy hne => htaken x y hx hy (nonZero_of_ne_zero hne),
    fun y hx hy => hfall 0 y hx hy nonZero_zero⟩

/-- Settles O27: the test of JF holds of 0 alone. The canonical words are JF's row of the table of R70. -/
theorem jumpIfFalseGoesToTarget : Obligations.JumpIfFalseGoesToTarget := by
  intro a b h
  refine ⟨Instr.word_emod_hundred _, rfl, (legalCanonicalWordsAreTheTable (.jumpIfFalse a b 0)).mp ⟨rfl, rfl⟩, fun s => ?_⟩
  obtain ⟨hextent, hphases⟩ := finish_jumpWhen_cases (fun x => !nonZero x) a b s
  refine ⟨hextent, fun hp => ?_⟩
  obtain ⟨hcondition, htarget, htaken, hfall⟩ := hphases hp
  exact ⟨hcondition, htarget, fun y hx hy => htaken 0 y hx hy (congrArg not nonZero_zero),
    fun x y hx hy hne => hfall x y hx hy (congrArg not (nonZero_of_ne_zero hne))⟩

end Sys2Proof.Machine

/-!
PROOFS. The statements of 44_compare.md: LT and EQ. Neither checks its result, so the law they share is that format F3CCP
always completes with an operation that cannot fail; the two differ in the test that chooses the word alone.
-/

namespace Sys2Proof

/-- An instruction of format F3CCP is legal if its one Produced argument is not Immediate (R68). -/
theorem Instr.legal_of_args_eq {i : Instr} {a b dest : Arg}
    (hi : i.args = [(.consumed, a), (.consumed, b), (.produced, dest)]) (hd : dest.mode ≠ .immediate) : i.legal = true := by
  rw [Instr.legal, hi]
  simpa using hd

end Sys2Proof

namespace Sys2Proof.Machine

theorem boolWord_decide (p : Prop) [Decidable p] : boolWord (decide p) = if p then 1 else 0 := by
  simp only [boolWord, decide_eq_true_eq]

theorem lessThanWord_eq (x y : Int) : lessThanWord x y = if x < y then 1 else 0 := boolWord_decide _

theorem equalsWord_eq (x y : Int) : equalsWord x y = if x = y then 1 else 0 := boolWord_decide _

/-- An operation on two integers whose result is not checked always completes once the operands are resolved: it stores the
result and passes on (R140, R141). -/
theorem finish_storeBinary_unchecked (op : Int → Int → Int) {w : Int} {a b dest : Arg} {s : State} {x y d : Int}
    (hp : s.pc + 4 ≤ s.cfg.wordMax) (hx : resolveValue s a = .ok x) (hy : resolveValue s b = .ok y)
    (hd : resolveTarget s dest w 2 = .ok d) :
    finish s (storeBinary (fun x y => .ok (op x y)) w a b dest s) =
      .next { s with mem := s.mem.write d.toNat (op x y), pc := s.pc + 4 } := by
  rw [storeBinary_of_resolved _ hp hx hy hd]
  rfl

/-! ### The statements -/

/-- Settles O22: LT is the unchecked operation `lessThanWord`. -/
theorem lessThanStoresOneOrZero : Obligations.LessThanStoresOneOrZero := by
  intro a b dest h s x y t hp hx hy ht
  refine ⟨Instr.word_emod_hundred _, ?_⟩
  rw [← lessThanWord_eq]
  exact finish_storeBinary_unchecked lessThanWord hp hx hy ht

/-- Settles O23: EQ is the unchecked operation `equalsWord`. The canonical words are EQ's row of the table of R70. -/
theorem equalsStoresOneOrZero : Obligations.EqualsStoresOneOrZero := by
  intro a b dest h
  refine ⟨Instr.word_emod_hundred _, rfl, fun hd => ?words, fun s x y t hp hx hy ht => ?completes⟩
  case words => exact (legalCanonicalWordsAreTheTable (.equals a b dest 0)).mp ⟨Instr.legal_of_args_eq rfl hd, rfl⟩
  case completes =>
    rw [← equalsWord_eq]
    exact finish_storeBinary_unchecked equalsWord hp hx hy ht

end Sys2Proof.Machine

/-!
PROOFS. The statement of 45_relative_base.md: ARB. Both sides of the word range are read off the inversion laws of
`adjustBase`, whose operand and sum are those of the state before the step.
-/

namespace Sys2Proof.Machine

/-- ARB with its operand resolved and the sum a word: the base moves by the operand, and the engine passes on (R150). -/
theorem exec_adjustRelativeBase_of_isWord {s : State} {a : Arg} {h : Nat} {x : Int} (hp : s.pc + 2 ≤ s.cfg.wordMax)
    (hx : resolveValue s a = .ok x) (hword : s.cfg.isWord (s.rb + x) = true) :
    exec (.adjustRelativeBase a h) s = .next ((s.setRb (s.rb + x)).setPc (s.pc + 2)) := by
  rw [exec, execAdjustRelativeBase, (adjustBase_eq_ok _ _ _).mpr ⟨x, hp, hx, hword, rfl⟩, finish_ok]

/-- ARB with its operand resolved and the sum no word: the fault that records the sum (R150, D2). -/
theorem exec_adjustRelativeBase_of_not_isWord {s : State} {a : Arg} {h : Nat} {x : Int}
    (hp : s.pc + 2 ≤ s.cfg.wordMax) (hx : resolveValue s a = .ok x) (hword : s.cfg.isWord (s.rb + x) = false) :
    exec (.adjustRelativeBase a h) s = .next (raise (.overflow (s.rb + x)) s) := by
  rw [exec, execAdjustRelativeBase, (adjustBase_eq_error _ _ _).mpr (.inr ⟨hp, .inr ⟨x, hx, hword, rfl⟩⟩), finish_error]

/-! ### The statement -/

/-- Settles O28: the sum is the new base if it is a word, and the fault's datum if it is not. -/
theorem adjustRelativeBaseAddsToBase : Obligations.AdjustRelativeBaseAddsToBase := fun _ _ _ _ hp hx =>
  ⟨exec_adjustRelativeBase_of_isWord hp hx, exec_adjustRelativeBase_of_not_isWord hp hx⟩

end Sys2Proof.Machine

/-!
PROOFS. The statement of 46_halt.md: HLT. It has no arguments, so past the extent check nothing can fault.
-/

namespace Sys2Proof.Machine

/-- HLT below the top of the address space: the engine is Halted, and the program counter is past the word (R160, D10). -/
theorem exec_halt_of_le {s : State} (h : Nat) (hp : s.pc + 1 ≤ s.cfg.wordMax) :
    exec (.halt h) s = .next ((s.setStatus .halted).setPc (s.pc + 1)) := by
  rw [exec, execHalt, haltState_eq, if_neg (Int.not_lt.mpr hp), finish_ok]

/-- An engine that has ended well has ended (R161). -/
theorem State.endedWell.ended {s : State} (h : s.endedWell) : s.ended :=
  (State.ended_iff s).mpr (.inl h)

/-! ### The statement -/

/-- Settles O29: the state HLT answers is Halted, so its run has ended well (R161), and with that ended. -/
theorem haltEndsTheRun : Obligations.HaltEndsTheRun := by
  intro h s hp
  have hwell : ((s.setStatus .halted).setPc (s.pc + 1)).endedWell := rfl
  exact ⟨_, exec_halt_of_le h hp, rfl, hwell.ended, hwell⟩

end Sys2Proof.Machine

/-!
PROOFS. The statements of 60_exceptions.md: what a fault records, and one step of the ring. A fault is taken by the fetch, by
the decode or by the instruction (`FaultOf`), and each of these says what its cause records.
-/

namespace Sys2Proof

/-- The Produced argument is the last of the four opcodes of format F3CCP and the only one of IN (R62, R65). -/
theorem Instr.opcode_of_produced {i : Instr} {n : Nat} {x : Arg} (h : i.args[n]? = some (.produced, x)) :
    (n = 2 ∧ (i.opcode : Int) ∈ ([1, 2, 7, 8] : List Int)) ∨ (n = 0 ∧ (i.opcode : Int) = 3) := by
  obtain ⟨hlt, hn⟩ := List.getElem?_eq_some_iff.mp h
  cases i with
  | add | mul | lessThan | equals =>
    refine .inl ⟨?_, by simp [Instr.opcode]⟩
    match n with
    | 0 | 1 => cases hn
    | 2 => rfl
  | input => exact .inr ⟨Nat.lt_one_iff.mp hlt, rfl⟩
  | jumpIfTrue | jumpIfFalse =>
    match n with
    | 0 | 1 => cases hn
  | output | adjustRelativeBase =>
    match n with
    | 0 => cases hn
  | halt => cases h

end Sys2Proof

namespace Sys2Proof.Machine

/-! ### What a fault records (R171) -/

/-- The three places where a step of a Running engine can fault: the fetch, the decode, the instruction (R92, R171). -/
theorem fault_cases_of_step {s t : State} {c : Cause} (hs : s.status = .running) (h : step s = .next t)
    (ht : t.status = .faulted c) :
    (s.pc < 0 ∧ c = .negativeAddress s.pc) ∨ (0 ≤ s.pc ∧ ∃ f, c = causeOfDecode f) ∨
      ∃ i, fetchDecode s = .ok i ∧ FaultOf s i c := by
  obtain ⟨hne, -⟩ | ⟨-, ⟨c', hf, rfl⟩ | ⟨i, hi, -, he⟩⟩ := step_cases s t h
  · exact absurd hs hne
  · cases ht
    obtain hneg | ⟨h0, f, -, hc⟩ := fetchDecode_error s c hf
    · exact .inl hneg
    · exact .inr (.inl ⟨h0, f, hc⟩)
  · exact .inr (.inr ⟨i, hi, he.faultOf_of_faulted hs ht⟩)

theorem isWord_eq_false_of_wordMax_lt {c : Config} {v : Int} (h : c.wordMax < v) : c.isWord v = false :=
  Bool.eq_false_iff.mpr fun hv => absurd ((isWord_iff c v).mp hv).2 (not_le.mpr h)

/-- An Immediate Produced argument, read off the fetched word: its mode digit is 1, and the opcode has a target there (R68). -/
theorem fetched_word_of_immediateTarget {s : State} {i : Instr} {n : Nat} {x : Arg} (hi : fetchDecode s = .ok i)
    (hn : i.args[n]? = some (.produced, x)) (hm : x.mode = .immediate) :
    0 ≤ s.pc ∧ i.word = s.mem.read s.pc.toNat ∧ i.word / 10 ^ (n + 2) % 10 = 1 ∧
      ((n = 2 ∧ i.word % 100 ∈ ([1, 2, 7, 8] : List Int)) ∨ (n = 0 ∧ i.word % 100 = 3)) := by
  obtain ⟨h0, hd⟩ := (fetchDecode_eq_ok s i).mp hi
  obtain ⟨hw, -⟩ := (decodeWith_eq_ok_iff _ _ _).mp hd
  obtain ⟨-, -, hfields⟩ := fields_of_decodeWith hd
  obtain ⟨hdigit, -⟩ := hfields n _ hn
  refine ⟨h0, hw, ?_, ?_⟩
  · rw [hw, hdigit, hm]; rfl
  · rw [Instr.word_emod_hundred]; exact Instr.opcode_of_produced hn

/-! ### A step of the ring (R187) -/

theorem Ring.stepAt_engines {r : Ring} {i : Nat} {s : State} (h : r.engines[i]? = some s) :
    (r.stepAt i).engines = (r.engines.set i (hostStep s)).modify ((i + 1) % r.engines.length)
      (·.pushInput (newOutputs s (hostStep s))) := by
  rw [Ring.stepAt, h]

theorem Ring.stepAt_results {r : Ring} {i : Nat} {s : State} (h : r.engines[i]? = some s) :
    (r.stepAt i).results =
      if i + 1 = r.engines.length then r.results ++ newOutputs s (hostStep s) else r.results := by
  rw [Ring.stepAt, h]

/-- In a ring of two or more, the next place is another one, the first after the last. -/
theorem succ_mod_ne_self {n i : Nat} (hn : 2 ≤ n) (hi : i < n) : (i + 1) % n ≠ i := by
  rcases Nat.lt_or_eq_of_le (show i + 1 ≤ n from hi) with hlt | heq
  · rw [Nat.mod_eq_of_lt hlt]; omega
  · rw [heq, Nat.mod_self]; omega

/-! ### The statements -/

/-- Settles O39: a fault of the fetch is a negative `pc`, one of the decode records what O13 and O14 say, and one of the
instruction is a case of `FaultOf`. -/
theorem faultRecordsItsCause : Obligations.FaultRecordsItsCause := by
  intro s t c hs h ht
  obtain ⟨hneg, rfl⟩ | ⟨h0, f, rfl⟩ | ⟨i, hi, hc⟩ := fault_cases_of_step hs h ht
  · exact ⟨hneg, .inl rfl⟩
  · cases f with
    | illegalOpcode w => exact ⟨h0, (illegalOpcodeFaultsExactly s t hs h0 h w).mp ht⟩
    | illegalMode w n => exact ⟨h0, (illegalModeFaultsExactly s t hs h0 h w n).mp ht⟩
  · cases hc with
    | extent hp => exact ⟨isWord_eq_false_of_wordMax_lt hp, i, hi, .inl ⟨rfl, hp⟩⟩
    | immediateTarget hn hm => exact fetched_word_of_immediateTarget hi hn hm
    | negative hn ha hx => exact ⟨ha, .inr ⟨i, _, _, _, hi, hn, hx⟩⟩
    | relative hn hm hv => exact ⟨hv, i, hi, .inr (.inl ⟨_, _, _, hn, hm, rfl⟩)⟩
    | sum hx hy hv => exact ⟨hv, _, hi, .inr (.inr (.inl ⟨_, _, _, _, _, _, hx, hy, .inl ⟨rfl, rfl⟩⟩))⟩
    | product hx hy hv => exact ⟨hv, _, hi, .inr (.inr (.inl ⟨_, _, _, _, _, _, hx, hy, .inr ⟨rfl, rfl⟩⟩))⟩
    | base hx hv => exact ⟨hv, _, hi, .inr (.inr (.inr ⟨_, _, _, rfl, hx, rfl⟩))⟩
    | inputFailure hr =>
      obtain ⟨answer, rest, hscript, hanswer⟩ := (requestInput_eq_fail s).mp hr
      exact ⟨rfl, _, _, answer, rest, hi, hscript, hanswer⟩

/-- Settles O50: the step writes place `i` and then the next place, which is another one. -/
theorem ringStepMovesOutputs : Obligations.RingStepMovesOutputs := by
  intro r i s hn hi
  have hlt : i < r.engines.length := (List.getElem?_eq_some_iff.mp hi).1
  have hne := succ_mod_ne_self hn hlt
  rw [Ring.stepAt_engines hi]
  refine ⟨?length, ?stepped, fun u hu => ?next, fun j hj hj' => ?others, Ring.stepAt_results hi⟩
  case length => rw [List.length_modify, List.length_set]
  case stepped => rw [List.getElem?_modify_ne _ _ hne, List.getElem?_set_self hlt]
  case next => rw [List.getElem?_modify_eq, List.getElem?_set_ne hne.symm, hu]; rfl
  case others => rw [List.getElem?_modify_ne _ _ hj'.symm, List.getElem?_set_ne hj.symm]

end Sys2Proof.Machine

/-!
PROOFS. The statements of 70_reset_and_hazards.md: what a reset with a program leaves. A reset stores the image from address 0
on in an empty memory, so the laws it needs are those of `Memory.writeWords`.
-/

namespace Sys2Proof.Machine

/-! ### A memory after a program image is stored (R201, R202) -/

theorem Memory.read_writeWords_nil_zero (ws : List Int) (a : Nat) :
    (Memory.writeWords [] 0 ws).read a = ws.getD a 0 := by
  rw [Memory.read_writeWords, if_neg (Nat.not_lt_zero a), Nat.zero_add, Nat.sub_zero]
  split_ifs with h
  · rfl
  · rw [Memory.read_nil, List.getD_eq_default _ _ (Nat.le_of_not_lt h)]

/-- Words stored where they end at or before the last address keep every cell in the address space and a word. -/
theorem Memory.Fits.writeWords {c : Config} {m : Memory} (h : m.Fits c) {a : Nat} {ws : List Int}
    (ha : (a : Int) + ws.length ≤ c.wordMax + 1) (hws : ∀ v ∈ ws, c.isWord v = true) : (m.writeWords a ws).Fits c := by
  intro cell hc
  obtain hc | ⟨-, hlt, hv⟩ := Memory.mem_writeWords ws m a cell hc
  · exact h cell hc
  · exact ⟨by omega, hws _ hv⟩

theorem Memory.fits_nil (c : Config) : Memory.Fits c [] := fun _ hc => absurd hc List.not_mem_nil

theorem programFits_iff (c : Config) (program : List Int) : programFits c program = true ↔
    (∀ v ∈ program, c.isWord v = true) ∧ (program.length : Int) ≤ c.wordMax + 1 := by
  rw [programFits, Bool.and_eq_true, List.all_eq_true, decide_eq_true_iff]

/-! ### The statements -/

/-- Settles O2: the memory reads as the image followed by zeros, and every other part of the reset state is a literal. -/
theorem loadPlacesProgram : Obligations.LoadPlacesProgram := fun _ program _ _ =>
  ⟨Memory.read_writeWords_nil_zero program, rfl, rfl, rfl, rfl, rfl, rfl, rfl, rfl⟩

/-- Settles O4: storing the image keeps the canonical form, and its cells are words in the address space because it fits. -/
theorem loadedStateIsWellFormed : Obligations.LoadedStateIsWellFormed := by
  intro c program ins outs hfits
  obtain ⟨hwords, hlength⟩ := (programFits_iff c program).mp hfits
  have hcanonical : (Memory.writeWords [] 0 program).wf = true := Memory.wf_writeWords program [] 0 rfl
  have hcells : (Memory.writeWords [] 0 program).Fits c :=
    (Memory.fits_nil c).writeWords (by rwa [Nat.cast_zero, zero_add]) hwords
  exact (State.wf_iff _).mpr ⟨hcanonical, hcells, isWord_zero c, isWord_zero c⟩

/-- Settles O3: the empty memory reads 0, a word whose opcode digits 00 are not an opcode. -/
theorem emptyProgramFaultsAtFirstStep : Obligations.EmptyProgramFaultsAtFirstStep := by
  intro c ins outs
  have hrefused : decodeWith 0 (rawWord (State.load c [] ins outs)) = .error (.illegalOpcode 0) :=
    (decodeWith_eq_illegalOpcode_iff 0 _ 0).mpr ⟨rfl, .inr (by decide)⟩
  exact step_of_decodeWith_error (s := State.load c [] ins outs) rfl le_rfl hrefused

end Sys2Proof.Machine
